-- ==== Sys2Proof/Word.lean ====
section
/-!
DEFINITION. The widths of the APA102 frame serializer's operands (00_scope.md R8, R9): plain bit vectors, all unsigned.
-/

namespace Sys2Proof

/-- A byte: a colour channel, or one byte on the wire (R9, `CH_BITS = 8`). -/
abbrev Byte := BitVec 8

/-- A command word of a command port (30_encoding.md R90). -/
abbrev Word := BitVec 32

/-- A brightness operand (R8, `BR_BITS = 5`). -/
abbrev Brightness := BitVec 5

/-- A count operand (R8, `COUNT_BITS = 16`). -/
abbrev Count := BitVec 16

/-- A host-memory byte address as an operand (R8, `ADDR_BITS = 32`). -/
abbrev Addr := BitVec 32

/-- The level of a GPIO line: `false` is 0 and `true` is 1 (R11). -/
abbrev Level := Bool

/-- A pin identifier.  `Pin` is a parameter type with decidable equality (R8, D25); the model takes the natural
numbers, which name any finite set of pins (log entry 1, DESIGN CHOICE, safe). -/
abbrev Pin := Nat

end Sys2Proof
end

