-- ==== Sys2Proof/Syntax.lean ====
section
/-!
DEFINITION. The four commands in the record form of 30_encoding.md R90, and the assembler-level form of R100, R101, whose
operands are still unbounded integers.
-/

namespace Sys2Proof

/-- A command (30_encoding.md R90, opcode_table.json). -/
inductive Instr
  /-- START_FRAME (41_frame_protocol.md R130). -/
  | startFrame
  /-- SEND_COLOR: red, green, blue and the brightness (R136). -/
  | sendColor (r g b : Byte) (br : Brightness)
  /-- END_FRAME: the chain length (R140). -/
  | endFrame (count : Count)
  /-- WRITE: the colour array's address, its length, one brightness for all (42_batch_write.md R160). -/
  | write (base : Addr) (count : Count) (br : Brightness)
deriving DecidableEq, Repr

/-- The length of a command in command words (30_encoding.md R91, R96). -/
def Instr.wordCount : Instr → Nat
  | .startFrame => 1
  | .sendColor _ _ _ _ => 1
  | .endFrame _ => 1
  | .write _ _ _ => 2

/-- A command as it stands at the syntax level (30_encoding.md R86, R88, R100, R101): channels, count and brightness are
integers, the brightness may be omitted, and a colour may be a braced triple.  `base` is a 32-bit address (R89; log
entry 19). -/
inductive AsmCmd
  /-- `START_FRAME`. -/
  | startFrame
  /-- `SEND_COLOR r, g, b[, br]`. -/
  | sendColor (r g b : Int) (br : Option Int)
  /-- `SEND_COLOR {r, g, b}[, br]`: another spelling of the same command (R100, R101, 41_frame_protocol.md R138). -/
  | sendColorTriple (rgb : Int × Int × Int) (br : Option Int)
  /-- `END_FRAME count`. -/
  | endFrame (count : Int)
  /-- `WRITE base, count[, br]`. -/
  | write (base : Addr) (count : Int) (br : Option Int)
deriving DecidableEq, Repr

/-- A command as the syntax that denotes it, with nothing omitted. -/
def Instr.toAsm : Instr → AsmCmd
  | .startFrame => .startFrame
  | .sendColor r g b br => .sendColor r.toNat g.toNat b.toNat (some br.toNat)
  | .endFrame count => .endFrame count.toNat
  | .write base count br => .write base count.toNat (some br.toNat)

end Sys2Proof
end

