-- ==== Sys2Proof/Decode.lean ====
section
/-!
DEFINITION. The decoder of the command port, total on every word, and the encoder (30_encoding.md R91 to R99).
-/

namespace Sys2Proof

/-- Why a command word is not decoded (30_encoding.md R96, R97). -/
inductive DecodeError
  /-- A reserved OP, or a nonzero reserved field (R97). -/
  | reservedEncoding
  /-- A WRITE first word with no second word (R96). -/
  | truncated
deriving DecidableEq, Repr

/-- `OP = W[31:29]` (R91). -/
def opField (w : Word) : BitVec 3 := w.extractLsb' 29 3

/-- `W[28:24]`, the brightness of formats FC and FW (R93, R95). -/
def brField (w : Word) : Brightness := w.extractLsb' 24 5

/-- `W[23:16]`, red in format FC, reserved in FW (R93, R95). -/
def redField (w : Word) : Byte := w.extractLsb' 16 8

/-- `W[15:8]`, green in format FC (R93). -/
def greenField (w : Word) : Byte := w.extractLsb' 8 8

/-- `W[7:0]`, blue in format FC (R93). -/
def blueField (w : Word) : Byte := w.extractLsb' 0 8

/-- `W[15:0]`, the count of formats FE and FW (R94, R95). -/
def countField (w : Word) : Count := w.extractLsb' 0 16

/-- The decoder of R98: the command and its length in words, or why there is none. -/
def decode (w : Word) (next : Option Word) : Except DecodeError (Instr × Nat) :=
  match (opField w).toNat with
  | 1 => if w.extractLsb' 0 29 = 0 then .ok (.startFrame, 1) else .error .reservedEncoding
  | 2 => .ok (.sendColor (redField w) (greenField w) (blueField w) (brField w), 1)
  | 3 => if w.extractLsb' 16 13 = 0 then .ok (.endFrame (countField w), 1) else .error .reservedEncoding
  | 4 =>
    if redField w ≠ 0 then .error .reservedEncoding
    else match next with
      | none => .error .truncated
      | some base => .ok (.write base (countField w) (brField w), 2)
  | _ => .error .reservedEncoding

/-- The words of a command, first word first (formats FS, FC, FE, FW: R92 to R95). -/
def encode : Instr → List Word
  | .startFrame => [0x20000000#32]
  | .sendColor r g b br => [0b010#3 ++ br ++ r ++ g ++ b]
  | .endFrame count => [0b011#3 ++ 0#13 ++ count]
  | .write base count br => [0b100#3 ++ br ++ 0#8 ++ count, base]

/-- The command the decoder reads from an instruction whose bits, numbered as opcode_table.json numbers them, are the low
`nbits` of `w`: bits 31..0 are the first command word and bits 63..32 the second. -/
def decodeTableWord (nbits w : Nat) : Option Instr :=
  match decode (BitVec.ofNat 32 (w % 2 ^ nbits)) (some (BitVec.ofNat 32 (w % 2 ^ nbits / 2 ^ 32))) with
  | .ok (i, _) => some i
  | .error _ => none

end Sys2Proof
end

