-- ==== Sys2Proof/Config.lean ====
section
/-!
DEFINITION. The constants of the block, its configuration (what is fixed for a run) and its one free value
(00_scope.md R8, 10_state.md R31, R34).
-/

namespace Sys2Proof

/-- The two pins an instance is bound to when it is built (10_state.md R34, 42_batch_write.md R169). -/
structure PinPair where
  clk  : Pin
  data : Pin
deriving DecidableEq, Repr

/-- A range of host-memory byte addresses, `base .. base + size - 1`. -/
structure AddrRange where
  base : Nat
  size : Nat
deriving DecidableEq, Repr

/-- What is fixed for a run (R8, R34): entry `k` of `bindings` is `clkPin(k)`, `dataPin(k)`, so its length is `N_INST`;
`readable` lists the addresses for which `Admit(addr)` holds (20_memory.md R62, R69).  On a finite address space a list of
ranges names every predicate (log entry 5, safe). -/
structure HwConfig where
  bindings : List PinPair
  readable : List AddrRange
deriving DecidableEq, Repr

/-- `ADDR_BITS = 32`: host memory has this many bytes (20_memory.md R60). -/
abbrev Config.memSize : Nat := 2 ^ 32

/-- The configuration of `State.reset`: instance 0 on the pins of 95_test_vectors.md (`c = 0`, `d = 1`), every address
admitted.  DESIGN CHOICE, unsafe for a claim about `State.reset` alone (log entry 3). -/
def Config.default : HwConfig := { bindings := [{ clk := 0, data := 1 }], readable := [{ base := 0, size := Config.memSize }] }

/-- The level of the output latch of a pin that nothing has written since reset: "unspecified, any value"
(10_state.md R31, 93_implementation_defined.md U11).  A free value: no proof can see what it is (log entry 4). -/
opaque Config.resetLatch : Pin → Level

end Sys2Proof
end

