-- ==== Sys2Proof/Machine/State.lean ====
section
/-!
DEFINITION. The state of the machine as plain data, its value after reset, and the reasons a step can stop.
-/

namespace Sys2Proof.Machine

/-- A GPIO event (00_scope.md R11). -/
inductive Event
  /-- `Cfg(p)`: configureAsOutput(p). -/
  | cfg (p : Pin)
  /-- `Set(p, l)`: setOutput(p, l). -/
  | set (p : Pin) (l : Level)
deriving DecidableEq, Repr

/-- The pin state owned by the GPIO capability: `oe` lists the direction bits that are 1 (10_state.md R30), `q` the latches
written since reset (R31).  Both are sorted by pin. -/
structure PinFile where
  oe : List (Nat × Bool)
  q  : List (Nat × Level)
deriving DecidableEq, Repr

/-- The phases of the frame state machine (10_state.md R40). -/
inductive Phase
  | idle
  | streaming
deriving DecidableEq, Repr

/-- The ghost contract state of one instance of the block (10_state.md R40, R41). -/
structure Ghost where
  phase : Phase
  nsent : Nat
deriving DecidableEq, Repr

/-- The position inside one bit (10_state.md R39): which of TRANSFER's three events comes next (40_bit_transfer.md R114). -/
inductive BitPart
  | setData
  | raiseClock
  | lowerClock
deriving DecidableEq, Repr

/-- The position of a running command (10_state.md R39): what it does next. -/
inductive SeqPos
  /-- The next event is number `n` of INIT's four (40_bit_transfer.md R112). -/
  | init (n : Fin 4)
  /-- The next action is a read of a colour byte of the current LED (20_memory.md R64). -/
  | read
  /-- The next event is the given part of bit `bit` of byte number `byte` of the command's byte sequence. -/
  | bit (byte : Nat) (bit : Fin 8) (part : BitPart)
deriving DecidableEq, Repr

/-- The sequencer while a command runs (10_state.md R39): the serving instance, the latched operands, the position, and
for WRITE the LED index and the colour bytes read for it so far, red first. -/
structure Running where
  inst   : Nat
  cmd    : Instr
  pos    : SeqPos
  led    : Nat
  colour : List Byte
deriving DecidableEq, Repr

/-- One command word on the command port of instance `inst` (30_encoding.md R90). -/
structure PortWord where
  inst : Nat
  word : Word
deriving DecidableEq, Repr

/-- One command in record form on the command port of instance `inst` (30_encoding.md R90). -/
structure PortRecord where
  inst : Nat
  cmd  : AsmCmd
deriving DecidableEq, Repr

/-- The host's finite command list (10_state.md R48), in either form of 30_encoding.md R90. -/
inductive Program
  | words (stream : List PortWord)
  | records (cmds : List PortRecord)
deriving DecidableEq, Repr

/-- What the host program is written against: the concrete instances, or the capability interface
(42_batch_write.md R168). -/
inductive Interface
  | concrete
  | capability
deriving DecidableEq, Repr

/-- The machine.  INVENTORY.md's State section gives each field's rule and reset value. -/
structure State where
  /-- `clkPin`, `dataPin`, `Admit` (R34, R62): fixed for the run, no step changes it. -/
  config    : HwConfig
  /-- `pin[p].oe` and `pin[p].q` (R30, R31). -/
  pins      : PinFile
  /-- The sequencer (R39); `none` is "no command is running". -/
  seq       : Option Running
  /-- `phase[k]` and `nsent[k]` (R40, R41), sorted by `k`, no entry equal to the reset value. -/
  ghost     : List (Nat × Ghost)
  /-- The run-wide ghost flag (R42). -/
  misuse    : Bool
  /-- The command stream index, in words (R48). -/
  cpc       : Nat
  /-- The event trace, oldest first (00_scope.md R7). -/
  trace     : List Event
  /-- Host memory (20_memory.md R60), sorted by address, no entry equal to what an unlisted address reads as. -/
  mem       : List Host.Cell
  /-- The host's command list (R48). -/
  program   : Program
  /-- What that program is written against (42_batch_write.md R168). -/
  interface : Interface
  /-- The instance whose command port the command being taken came in on (30_encoding.md R90). -/
  port      : Nat
deriving DecidableEq, Repr

/-- Why the machine has no step.  The hardware itself raises no fault (60_exceptions.md R175). -/
inductive Fault
  /-- `stuck`, R176 code 9: WRITE reads an address the platform does not admit (20_memory.md R62); raised by WRITE and by
  any later step.  `left` is the state the instance is stuck in, its events so far in the trace (60_exceptions.md R180).
  Safe: the model goes no further than the spec says. -/
  | memNotAdmitted (addr : Nat) (left : State)
  /-- The command list is used up: the final end of 70_reset_and_hazards.md R222; raised by the step.  Safe: no command is
  issued, so nothing steps (00_scope.md R6). -/
  | runEnded
deriving DecidableEq, Repr

/-- Why a command has no meaning (60_exceptions.md R176).  Every refusal is decided before the command's first event and
changes no state (R180).  All are safe: the model gives no meaning. -/
inductive Refusal
  /-- An arm of `exec` that has no meaning yet; raised by `exec`; none is left. -/
  | notModelled (mnemonic : String)
  /-- R176 code 1: a reserved OP or a nonzero reserved field (30_encoding.md R97); raised by the step. -/
  | reservedEncoding
  /-- R176 code 2: a WRITE first word with no second word (30_encoding.md R96); raised by the step. -/
  | truncated
  /-- R176 code 3: a count outside `0..65535` in the record form (30_encoding.md R88); raised by the assembler. -/
  | countRange
  /-- R176 code 4: a channel outside `0..255` in the record form (30_encoding.md R100); raised by the assembler. -/
  | channelRange
  /-- R176 code 5: the colour array does not fit below the top of memory (20_memory.md R63); raised by WRITE. -/
  | addrOverflow
  /-- R176 code 6: the pin map is not well formed (10_state.md R35, 00_scope.md R8); raised by the step, on an
  empty command list too (log entry 23), and by every command. -/
  | badPinMap
  /-- R176 code 7: a command other than WRITE in a capability-interface program (42_batch_write.md R168); raised by
  START_FRAME, SEND_COLOR and END_FRAME. -/
  | notInCapability
  /-- R176 code 8: a command issued while another is in flight (60_exceptions.md R188); raised by every command. -/
  | concurrentHost
  /-- A command addressed to an instance that does not exist (`k` is not below `N_INST`, 10_state.md R34); raised by every
  command.  The model's own (log entry 8, DESIGN CHOICE, safe). -/
  | noSuchInstance
deriving DecidableEq, Repr

/-- The start state of a run (70_reset_and_hazards.md R222): the reset values of R200 with a configuration, a host memory
and a command list. -/
def State.start (config : HwConfig) (mem : List Host.Cell) (program : Program) (interface : Interface) : State where
  config := config
  pins := { oe := [], q := [] }
  seq := none
  ghost := []
  misuse := false
  cpc := 0
  trace := []
  mem := mem
  program := program
  interface := interface
  port := 0

/-- The machine right after reset, with nothing loaded (R200; log entries 3, 6, 14, 15, 16). -/
def State.reset : State := State.start Config.default [] (.words []) .concrete

end Sys2Proof.Machine
end

