-- ==== Sys2Proof/Machine/Store.lean ====
section
/-!
DEFINITION. Sparse tables by number, as sorted lists: the one representation of the pin state, the ghost state and host
memory.
-/

namespace Sys2Proof.Machine

/-- The entry for `k`, if there is one. -/
def find? {β : Type} (k : Nat) : List (Nat × β) → Option β
  | [] => none
  | (a, v) :: rest => if a = k then some v else find? k rest

/-- The table with `v` as the entry for `k`. -/
def put {β : Type} (k : Nat) (v : β) : List (Nat × β) → List (Nat × β)
  | [] => [(k, v)]
  | (a, w) :: rest =>
    if k < a then (k, v) :: (a, w) :: rest
    else if k = a then (k, v) :: rest
    else (a, w) :: put k v rest

/-- The table with no entry for `k`. -/
def del {β : Type} (k : Nat) (l : List (Nat × β)) : List (Nat × β) := l.filter (fun e => decide (e.1 ≠ k))

/-- Reads `k` in a table whose unlisted keys read as `dflt`. -/
def load {β : Type} (dflt : β) (k : Nat) (l : List (Nat × β)) : β := (find? k l).getD dflt

/-- Writes `k` in a table whose unlisted keys read as `dflt`: writing `dflt` removes the entry. -/
def store {β : Type} [DecidableEq β] (dflt : β) (k : Nat) (v : β) (l : List (Nat × β)) : List (Nat × β) :=
  if v = dflt then del k l else put k v l

/-- Keys strictly rising. -/
abbrev Sorted {β : Type} (l : List (Nat × β)) : Prop := l.Pairwise (fun a b => a.1 < b.1)

/-- The canonical form of a table whose unlisted keys read as `dflt`: sorted, and no entry equal to `dflt`. -/
abbrev Canonical {β : Type} (dflt : β) (l : List (Nat × β)) : Prop := Sorted l ∧ ∀ e ∈ l, e.2 ≠ dflt

end Sys2Proof.Machine
end

