-- ==== Sys2Proof/Machine/Operands.lean ====
section
/-!
DEFINITION. Operand forms: the brightness header, the bytes of the frame parts, the end-frame arithmetic and the addresses
of the colour array (30_encoding.md R81 to R89, 20_memory.md R61, R63).
-/

namespace Sys2Proof.Machine

/-- `BR_DEFAULT`: the brightness when it is omitted (00_scope.md R8, 30_encoding.md R86). -/
def defaultBrightness : Int := 31

/-- A brightness operand masked to its low 5 bits, a negative one in two's complement (30_encoding.md R86). -/
def maskBrightness (br : Int) : Brightness := BitVec.ofInt 5 br

/-- A brightness operand that may be omitted (30_encoding.md R86, R101). -/
def brightnessOperand (br : Option Int) : Brightness := maskBrightness (br.getD defaultBrightness)

/-- The first byte of an LED word, `0b11100000 | zext_8(br)` (30_encoding.md R82). -/
def headerByte (br : Brightness) : Byte := 0xE0#8 ||| br.setWidth 8

/-- The start frame (30_encoding.md R81). -/
def startFrameBytes : List Byte := [0x00#8, 0x00#8, 0x00#8, 0x00#8]

/-- An LED word in send order: header, blue, green, red (30_encoding.md R82). -/
def ledWord (r g b : Byte) (br : Brightness) : List Byte := [headerByte br, b, g, r]

/-- `Z(count) = 5 + floor(count / 16)`, the zero bytes of the end frame (41_frame_protocol.md R141, R143). -/
def endZeros (count : Count) : Nat := 5 + count.toNat / 16

/-- The end frame (30_encoding.md R83). -/
def endFrameBytes (count : Count) : List Byte := 0xFF#8 :: List.replicate (endZeros count) 0x00#8

/-- `L(count)`, the length of a complete frame in bytes (30_encoding.md R84, 41_frame_protocol.md R141). -/
def frameLength (count : Count) : Nat := 4 + 4 * count.toNat + 6 + count.toNat / 16

/-- The address of byte `j` of colour `i` (0 red, 1 green, 2 blue; 20_memory.md R61).  A natural number: addresses never
wrap (R63). -/
def colourAddr (base : Addr) (i j : Nat) : Nat := base.toNat + 3 * i + j

/-- The colour array does not fit below the top of the address space (20_memory.md R63). -/
def addrOverflow (base : Addr) (count : Count) : Bool :=
  decide (1 ≤ count.toNat ∧ base.toNat + 3 * count.toNat - 1 > 2 ^ 32 - 1)

end Sys2Proof.Machine
end

