-- ==== Sys2Proof/Machine/Flags.lean ====
section
/-!
DEFINITION. The block has no status flags (10_state.md R38).  What stands here is the ghost contract state that a model
keeps instead: `phase`, `nsent` and the sticky `misuse` flag (R40 to R43, 41_frame_protocol.md R150, R151, 42_batch_write.md
R166, 60_exceptions.md R190).
-/

namespace Sys2Proof.Machine

/-- The reset value of an instance's ghost state (10_state.md R40, R41). -/
def Ghost.initial : Ghost := { phase := .idle, nsent := 0 }

/-- The ghost state of instance `k`. -/
def State.ghostOf (s : State) (k : Nat) : Ghost := load Ghost.initial k s.ghost

/-- The ghost state after a command (the table of 41_frame_protocol.md R150). -/
def ghostAfter (i : Instr) (g : Ghost) : Ghost :=
  match i with
  | .startFrame => { phase := .streaming, nsent := 0 }
  | .sendColor _ _ _ _ => { g with nsent := g.nsent + 1 }
  | .endFrame _ => { g with phase := .idle }
  | .write _ _ _ => { g with phase := .idle }

/-- The misuse conditions of a command on its own instance, on the ghost state before it (41_frame_protocol.md R151,
42_batch_write.md R166). -/
def ownMisuse (i : Instr) (g : Ghost) : Bool :=
  match i with
  | .startFrame => decide (g.phase = .streaming)
  | .sendColor _ _ _ _ => decide (g.phase = .idle)
  | .endFrame count => decide (g.phase = .idle) || decide (count.toNat ≠ g.nsent) || decide (count.toNat = 0)
  | .write _ count _ => decide (count.toNat = 0) || decide (g.phase = .streaming)

/-- The shared-clock duty: another instance on the same clock pin is streaming (60_exceptions.md R190). -/
def sharedClockMisuse (s : State) (pp : PinPair) : Bool :=
  (List.range s.config.bindings.length).any fun k =>
    decide (k ≠ s.port) && decide ((s.config.bindings[k]?).map PinPair.clk = some pp.clk) &&
      decide ((s.ghostOf k).phase = .streaming)

/-- Every misuse condition of command `i` on the instance it is addressed to, whose pins are `pp`. -/
def misuseOf (i : Instr) (pp : PinPair) (s : State) : Bool :=
  ownMisuse i (s.ghostOf s.port) || sharedClockMisuse s pp

end Sys2Proof.Machine
end

