-- ==== Sys2Proof/Machine/Ops.lean ====
section
/-!
DEFINITION. The operations every command is made of: Emit, INIT, TRANSFER, MemRead, the checks made when a command is
accepted, its completion, taking the next command, the reset event and the host's stores.
-/

namespace Sys2Proof.Machine

/-- `pin[p].oe` (10_state.md R30). -/
def PinFile.oeBit (f : PinFile) (p : Pin) : Bool := load false p f.oe

/-- `pin[p].q` (10_state.md R31); a latch nothing has written holds the free value (log entry 4). -/
def PinFile.latch (f : PinFile) (p : Pin) : Level := load (Config.resetLatch p) p f.q

/-- The pin state at reset (10_state.md R30, R31). -/
def PinFile.initial : PinFile := { oe := [], q := [] }

/-- What an event does to the pin state (40_bit_transfer.md R110). -/
def PinFile.apply (f : PinFile) : Event → PinFile
  | .cfg p => { f with oe := put p true f.oe }
  | .set p l => { f with q := put p l f.q }

/-- `Emit` of each event of a list, in order (40_bit_transfer.md R110, 20_memory.md R72). -/
def State.emitAll (s : State) (evs : List Event) : State :=
  { s with trace := s.trace ++ evs, pins := evs.foldl PinFile.apply s.pins }

/-- `Emit(ev)` (40_bit_transfer.md R110). -/
def State.emit (s : State) (ev : Event) : State := s.emitAll [ev]

/-- The events of INIT (40_bit_transfer.md R112). -/
def initEvents (pp : PinPair) : List Event :=
  [.set pp.data false, .cfg pp.data, .set pp.clk false, .cfg pp.clk]

/-- The events of one bit: set the data line, raise the clock, lower the clock (40_bit_transfer.md R114). -/
def bitEvents (pp : PinPair) (l : Level) : List Event :=
  [.set pp.data l, .set pp.clk true, .set pp.clk false]

/-- The bit indices of a byte in send order (40_bit_transfer.md R114: `for i from 7 downto 0`). -/
def bitOrder : List Nat := [7, 6, 5, 4, 3, 2, 1, 0]

/-- The bits of a byte in send order, most significant first (30_encoding.md R80). -/
def byteBits (v : Byte) : List Level := bitOrder.map v.getLsbD

/-- The events of TRANSFER (40_bit_transfer.md R114). -/
def transferEvents (pp : PinPair) (v : Byte) : List Event := (byteBits v).flatMap (bitEvents pp)

/-- INIT (40_bit_transfer.md R112). -/
def State.init (s : State) (pp : PinPair) : State := s.emitAll (initEvents pp)

/-- TRANSFER of each byte of a list, in order (40_bit_transfer.md R114). -/
def State.transferAll (s : State) (pp : PinPair) (bytes : List Byte) : State :=
  s.emitAll (bytes.flatMap (transferEvents pp))

/-- The byte host memory holds at an address.  An unlisted byte reads as 0 (log entry 6). -/
def hostByte (mem : List Host.Cell) (addr : Nat) : Byte := load 0#8 addr mem

/-- The canonical form of host memory: sorted, no zero byte listed, every address below `2^32` (20_memory.md R60). -/
abbrev Memory.wf (mem : List Host.Cell) : Prop := Canonical 0#8 mem ∧ ∀ e ∈ mem, e.1 < Config.memSize

/-- `Admit(addr)` (20_memory.md R62): the address exists and the platform admits a 1-byte read of it. -/
def admits (c : HwConfig) (addr : Nat) : Bool :=
  decide (addr < Config.memSize) && c.readable.any fun r => decide (r.base ≤ addr ∧ addr < r.base + r.size)

/-- `MemRead(addr, 1)` (20_memory.md R62): no value where the read is not admitted. -/
def State.memRead (s : State) (addr : Nat) : Option Byte :=
  if admits s.config addr then some (hostByte s.mem addr) else none

/-- The well-formed pin maps: an instance's pins differ, and its data pin is no pin of another (10_state.md R35); there is
at least one instance (00_scope.md R8, 92_eei_decisions.md D23: a violation refuses BadPinMap). -/
def pinMapOk (c : HwConfig) : Bool :=
  !c.bindings.isEmpty && (List.range c.bindings.length).all fun k =>
    match c.bindings[k]? with
    | none => true
    | some pk =>
      decide (pk.clk ≠ pk.data) &&
        (List.range c.bindings.length).all fun j =>
          match c.bindings[j]? with
          | none => true
          | some pj => decide (j = k) || (decide (pk.data ≠ pj.clk) && decide (pk.data ≠ pj.data))

/-- The length by which a completed command advances `cpc`: its words in the word form, 1 in the record form
(10_state.md R48). -/
def State.cmdLength (s : State) (i : Instr) : Nat :=
  match s.program with
  | .words _ => i.wordCount
  | .records _ => 1

/-- The length of the command list, in the units of `cpc` (10_state.md R48). -/
def Program.length : Program → Nat
  | .words ws => ws.length
  | .records rs => rs.length

/-- Sets the ghost flag where a misuse condition holds (10_state.md R42: no event clears it). -/
def State.flagMisuse (s : State) (b : Bool) : State := { s with misuse := s.misuse || b }

/-- The sequencer's state. -/
def State.setSeq (s : State) (r : Option Running) : State := { s with seq := r }

/-- The command port the next command comes in on. -/
def State.setPort (s : State) (k : Nat) : State := { s with port := k }

/-- The completion of command `i`: the ghost transition of 41_frame_protocol.md R150, `cpc` past the command
(10_state.md R48), and no command running (R39). -/
def State.complete (s : State) (i : Instr) : State :=
  { s with
    ghost := store Ghost.initial s.port (ghostAfter i (s.ghostOf s.port)) s.ghost
    cpc := s.cpc + s.cmdLength i
    seq := none }

/-- The end of a frame, as END_FRAME and WRITE make it: the bytes of the end frame, and the command is complete.  The block's
part ends with the last event of the end frame; when the LEDs latch is not its state (70_reset_and_hazards.md R211). -/
def State.finishFrame (s : State) (pp : PinPair) (i : Instr) (count : Count) : State :=
  (s.transferAll pp (endFrameBytes count)).complete i

/-- The running command waits for a colour read that the platform does not admit: the address (20_memory.md R62). -/
def State.stuckAt (s : State) : Option Nat :=
  match s.seq with
  | some { cmd := .write base _ _, pos := .read, led := led, colour := colour, .. } =>
    if admits s.config (colourAddr base led colour.length) then none else some (colourAddr base led colour.length)
  | _ => none

/-- Only WRITE belongs to the capability interface (42_batch_write.md R168). -/
def inCapability : Instr → Bool
  | .startFrame => false
  | .sendColor _ _ _ _ => false
  | .endFrame _ => false
  | .write _ _ _ => true

/-- The checks made when a command is accepted, in the order of 60_exceptions.md R179, then the command itself on the pins
of its instance.  A stuck instance has no step (R181). -/
def State.issue (s : State) (i : Instr) (run : PinPair → Host.Outcome State Fault Refusal) :
    Host.Outcome State Fault Refusal :=
  if pinMapOk s.config = false then .refused .badPinMap
  else match s.stuckAt with
    | some addr => .fault (.memNotAdmitted addr s)
    | none =>
      match s.config.bindings[s.port]? with
      | none => .refused .noSuchInstance
      | some pp =>
        if s.interface = .capability ∧ inCapability i = false then .refused .notInCapability
        else if s.seq.isSome then .refused .concurrentHost
        else run pp

/-- What the host's command list gives at `cpc`. -/
inductive Fetched
  /-- The list is used up (70_reset_and_hazards.md R222). -/
  | ended
  /-- The words or the syntax at `cpc` denote no command. -/
  | rejected (r : Refusal)
  /-- A command for instance `k`. -/
  | command (k : Nat) (i : Instr)
deriving DecidableEq, Repr

/-- The refusal of a word that does not decode (60_exceptions.md R176). -/
def decodeRefusal : DecodeError → Refusal
  | .reservedEncoding => .reservedEncoding
  | .truncated => .truncated

/-- The command at `cpc` in the word form: the word after it is its second word if it came in on the same port
(30_encoding.md R96, R98; log entry 7). -/
def fetchWord (ws : List PortWord) (cpc : Nat) : Fetched :=
  match ws[cpc]? with
  | none => .ended
  | some w =>
    let next := match ws[cpc + 1]? with
      | some w' => if w'.inst = w.inst then some w'.word else none
      | none => none
    match decode w.word next with
    | .ok (i, _) => .command w.inst i
    | .error e => .rejected (decodeRefusal e)

/-- The reset event (70_reset_and_hazards.md R200): every piece of state at its reset value; the configuration stays, and
so do the host's memory and command list, which are not the block's (log entry 18). -/
def State.resetEvent (s : State) : State := State.start s.config s.mem s.program s.interface

/-- A store by the host between two commands (20_memory.md R65, R71): the caller may change its array. -/
def State.hostStore (s : State) (addr : Addr) (v : Byte) : State := { s with mem := store 0#8 addr.toNat v s.mem }

end Sys2Proof.Machine
end

