-- ==== Sys2Proof/WellFormed.lean ====
section
/-!
DEFINITION. Which syntax denotes a command: the range checks of 30_encoding.md R88 and R100.  Every `Instr` is well formed,
because its operands have the spec's widths.
-/

namespace Sys2Proof

/-- A channel value has an encoding only in `0..255` (30_encoding.md R100). -/
def channelInRange (v : Int) : Bool := decide (0 ≤ v ∧ v ≤ 255)

/-- A count has an encoding only in `0..65535` (30_encoding.md R88). -/
def countInRange (v : Int) : Bool := decide (0 ≤ v ∧ v ≤ 65535)

/-- The count check of R88, for the commands that have a count. -/
def AsmCmd.countOk : AsmCmd → Bool
  | .startFrame => true
  | .sendColor _ _ _ _ => true
  | .sendColorTriple _ _ => true
  | .endFrame count => countInRange count
  | .write _ count _ => countInRange count

/-- The channel check of R100, for the command that has channels. -/
def AsmCmd.channelsOk : AsmCmd → Bool
  | .startFrame => true
  | .sendColor r g b _ => channelInRange r && channelInRange g && channelInRange b
  | .sendColorTriple rgb _ => channelInRange rgb.1 && channelInRange rgb.2.1 && channelInRange rgb.2.2
  | .endFrame _ => true
  | .write _ _ _ => true

/-- Syntax that denotes a command.  A brightness outside `0..31` is masked, not refused (R86). -/
def AsmCmd.wellFormed (a : AsmCmd) : Bool := a.countOk && a.channelsOk

/-- A command is well formed when the syntax that denotes it is. -/
def Instr.wellFormed (i : Instr) : Bool := i.toAsm.wellFormed

end Sys2Proof
end

