-- ==== Sys2Proof/Machine/Assembler.lean ====
section
/-!
DEFINITION. The syntax level: from an assembler form with integer operands to a command, or a refusal
(30_encoding.md R86, R88, R100, R101), the lowering of WRITE (R102), and the command at `cpc` in the record form.
-/

namespace Sys2Proof.Machine

/-- SEND_COLOR from its integer operands: a channel outside `0..255` is refused, the brightness is masked
(30_encoding.md R86, R100). -/
def assembleColor (r g b : Int) (br : Option Int) : Except Refusal Instr :=
  if channelInRange r && channelInRange g && channelInRange b then
    .ok (.sendColor (BitVec.ofInt 8 r) (BitVec.ofInt 8 g) (BitVec.ofInt 8 b) (brightnessOperand br))
  else .error .channelRange

/-- The command an assembler form denotes, or why it has none (30_encoding.md R86, R88, R100, R101). -/
def assemble : AsmCmd → Except Refusal Instr
  | .startFrame => .ok .startFrame
  | .sendColor r g b br => assembleColor r g b br
  | .sendColorTriple rgb br => assembleColor rgb.1 rgb.2.1 rgb.2.2 br
  | .endFrame count => if countInRange count then .ok (.endFrame (BitVec.ofInt 16 count)) else .error .countRange
  | .write base count br =>
    if countInRange count then .ok (.write base (BitVec.ofInt 16 count) (brightnessOperand br)) else .error .countRange

/-- A colour of the caller's array: red, green, blue (20_memory.md R61). -/
structure Colour where
  r : Byte
  g : Byte
  b : Byte
deriving DecidableEq, Repr

/-- The lowering of a WRITE whose colours are known (30_encoding.md R102). -/
def lowerWrite (colours : List Colour) (br : Brightness) : List Instr :=
  .startFrame :: (colours.map fun c => .sendColor c.r c.g c.b br) ++ [.endFrame (BitVec.ofNat 16 colours.length)]

/-- The command at `cpc` in the record form (30_encoding.md R90, 60_exceptions.md R179). -/
def fetchRecord (rs : List PortRecord) (cpc : Nat) : Fetched :=
  match rs[cpc]? with
  | none => .ended
  | some rec =>
    match assemble rec.cmd with
    | .ok i => .command rec.inst i
    | .error e => .rejected e

/-- What the host's command list gives at `cpc` (10_state.md R48). -/
def State.fetch (s : State) : Fetched :=
  match s.program with
  | .words ws => fetchWord ws s.cpc
  | .records rs => fetchRecord rs s.cpc

end Sys2Proof.Machine
end

