-- ==== Sys2Proof/Machine/BatchWrite.lean ====
section
/-!
DEFINITION. The batch command WRITE (42_batch_write.md R160, 20_memory.md R61 to R64).
-/

namespace Sys2Proof.Machine

/-- Reading the three bytes of colour `i`, red, green, blue in that order (20_memory.md R64): the colour, or the bytes
read before the read that is not admitted. -/
def State.readColour (s : State) (base : Addr) (i : Nat) : Except (List Byte) Colour :=
  match s.memRead (colourAddr base i 0) with
  | none => .error []
  | some r =>
    match s.memRead (colourAddr base i 1) with
    | none => .error [r]
    | some g =>
      match s.memRead (colourAddr base i 2) with
      | none => .error [r, g]
      | some b => .ok { r := r, g := g, b := b }

/-- The state a WRITE is stuck in (20_memory.md R62, 60_exceptions.md R180): its events so far, the sequencer at the read
of LED `i` that is not admitted. -/
def State.stuckWrite (s : State) (base : Addr) (count : Count) (br : Brightness) (i : Nat) (got : List Byte) : State :=
  s.setSeq (some { inst := s.port, cmd := .write base count br, pos := .read, led := i, colour := got })

/-- WRITE's loop over the LEDs from number `i` on, `n` of them left: read the colour, then send its LED word
(42_batch_write.md R160).  `.error` gives the address of the read that is not admitted and the stuck state. -/
def State.sendLeds (pp : PinPair) (base : Addr) (count : Count) (br : Brightness) :
    Nat → Nat → State → Except (Nat × State) State
  | 0, _, s => .ok s
  | n + 1, i, s =>
    match s.readColour base i with
    | .error got => .error (colourAddr base i got.length, s.stuckWrite base count br i got)
    | .ok c => State.sendLeds pp base count br n (i + 1) (s.transferAll pp (ledWord c.r c.g c.b br))

/-- WRITE (42_batch_write.md R160): a start frame as START_FRAME's, an LED word for each colour in memory, an end frame as
END_FRAME's. -/
def execWrite (base : Addr) (count : Count) (br : Brightness) (s : State) : Host.Outcome State Fault Refusal :=
  s.issue (.write base count br) fun pp =>
    if addrOverflow base count then .refused .addrOverflow
    else
      match State.sendLeds pp base count br count.toNat 0
          (((s.flagMisuse (misuseOf (.write base count br) pp s)).init pp).transferAll pp startFrameBytes) with
      | .error (addr, stuck) => .fault (.memNotAdmitted addr stuck)
      | .ok t => .next (t.finishFrame pp (.write base count br) count)

end Sys2Proof.Machine
end

