-- ==== Sys2Proof/Machine/FrameProtocol.lean ====
section
/-!
DEFINITION. The streaming commands START_FRAME, SEND_COLOR and END_FRAME (41_frame_protocol.md).
-/

namespace Sys2Proof.Machine

/-- START_FRAME (41_frame_protocol.md R130): INIT, then four zero bytes. -/
def execStartFrame (s : State) : Host.Outcome State Fault Refusal :=
  s.issue .startFrame fun pp =>
    .next ((((s.flagMisuse (misuseOf .startFrame pp s)).init pp).transferAll pp startFrameBytes).complete .startFrame)

/-- SEND_COLOR (41_frame_protocol.md R136): one LED word; no INIT. -/
def execSendColor (r g b : Byte) (br : Brightness) (s : State) : Host.Outcome State Fault Refusal :=
  s.issue (.sendColor r g b br) fun pp =>
    .next (((s.flagMisuse (misuseOf (.sendColor r g b br) pp s)).transferAll pp (ledWord r g b br)).complete
      (.sendColor r g b br))

/-- END_FRAME (41_frame_protocol.md R140): `0xFF`, then `5 + floor(count/16)` zero bytes; no INIT. -/
def execEndFrame (count : Count) (s : State) : Host.Outcome State Fault Refusal :=
  s.issue (.endFrame count) fun pp =>
    .next ((s.flagMisuse (misuseOf (.endFrame count) pp s)).finishFrame pp (.endFrame count) count)

end Sys2Proof.Machine
end

