-- ==== Sys2Proof/Machine/Dispatch.lean ====
section
/-! DEFINITION. The meaning of every command, one arm per constructor of Instr. -/

namespace Sys2Proof.Machine

def exec (i : Instr) (s : State) : Host.Outcome State Fault Refusal :=
  match i with
  | .startFrame => Sys2Proof.Machine.execStartFrame s
  | .sendColor r g b br => Sys2Proof.Machine.execSendColor r g b br s
  | .endFrame count => Sys2Proof.Machine.execEndFrame count s
  | .write base count br => Sys2Proof.Machine.execWrite base count br s

end Sys2Proof.Machine
end

