-- ==== Sys2Proof/Machine/Observe.lean ====
section
/-!
DEFINITION. Reading the wire: line levels, rising edges, the bit stream and the byte stream of a strip
(10_state.md R32, 40_bit_transfer.md R118), the waveform of a pin and the observation of a run (00_scope.md R7), clock edges
(41_frame_protocol.md R147), and the observation of a final end (70_reset_and_hazards.md R222).
-/

namespace Sys2Proof.Machine

/-- What a line carries (10_state.md R32): `z` is not driven, and what a receiver sees there is not modelled (D26). -/
inductive Wire
  | z
  | driven (l : Level)
deriving DecidableEq, Repr

/-- `wire(p)` (10_state.md R32). -/
def PinFile.wire (f : PinFile) (p : Pin) : Wire := if f.oeBit p then .driven (f.latch p) else .z

/-- The waveform of pin `p` over a list of events that starts in pin state `f`: its wire level before the first event and
after each event (00_scope.md R7, 10_state.md R32). -/
def waveform (p : Pin) : PinFile → List Event → List Wire
  | f, [] => [f.wire p]
  | f, ev :: rest => f.wire p :: waveform p (f.apply ev) rest

/-- A rising edge on clock pin `c`: `Set(c, 1)` on a driven line that was 0 and is 1 after it (40_bit_transfer.md R118). -/
def isRisingEdge (c : Pin) (f : PinFile) (ev : Event) : Bool :=
  match ev with
  | .cfg _ => false
  | .set p l => decide (p = c) && l && f.oeBit c && !f.latch c && decide ((f.apply ev).wire c = .driven true)

/-- The bits a strip samples from a list of events, starting in pin state `f` (40_bit_transfer.md R118). -/
def sampledBits (pp : PinPair) : PinFile → List Event → List Wire
  | _, [] => []
  | f, ev :: rest =>
    if isRisingEdge pp.clk f ev then (f.apply ev).wire pp.data :: sampledBits pp (f.apply ev) rest
    else sampledBits pp (f.apply ev) rest

/-- A byte from eight sampled bits, most significant first; none if a bit is not defined. -/
def byteOfBits (bits : List Wire) : Option Byte :=
  bits.foldl (fun acc w =>
    match acc, w with
    | some v, .driven l => some (v.shiftLeft 1 ||| (BitVec.ofBool l).setWidth 8)
    | _, _ => none) (some 0#8)

/-- A bit stream cut into groups of 8 (40_bit_transfer.md R118); a group that is not complete is no byte yet. -/
def groupBytes : List Wire → List (Option Byte)
  | b7 :: b6 :: b5 :: b4 :: b3 :: b2 :: b1 :: b0 :: rest =>
    byteOfBits [b7, b6, b5, b4, b3, b2, b1, b0] :: groupBytes rest
  | _ => []

/-- The bit stream of the strip of an instance with pins `pp`: every rising edge since reset. -/
def State.bitStream (s : State) (pp : PinPair) : List Wire := sampledBits pp PinFile.initial s.trace

/-- The byte stream of that strip. -/
def State.byteStream (s : State) (pp : PinPair) : List (Option Byte) := groupBytes (s.bitStream pp)

/-- The wire waveform of a pin since reset, whichever pin it is (00_scope.md R7). -/
def State.waveform (s : State) (p : Pin) : List Wire := Machine.waveform p PinFile.initial s.trace

/-- The pins of the pin map, each once, in order: a table of what each carries has one entry for a shared clock pin. -/
def boundPins (c : HwConfig) : List Pin := (c.bindings.flatMap fun pp => [pp.clk, pp.data]).eraseDups

/-- The observation of a run so far (00_scope.md R7): the event trace, and the wire waveform of each pin of the pin map. -/
structure RunObservation where
  trace : List Event
  waves : List (Pin × List Wire)
deriving DecidableEq, Repr

/-- What is observed of the run that led to a state (00_scope.md R7). -/
def State.observeRun (s : State) : RunObservation :=
  { trace := s.trace, waves := (boundPins s.config).map fun p => (p, s.waveform p) }

/-- An edge in the sense of 41_frame_protocol.md R147: an event that changes the level of the clock line. -/
def isClockEdge (c : Pin) (f : PinFile) (ev : Event) : Bool :=
  match f.wire c, (f.apply ev).wire c with
  | .driven a, .driven b => a != b
  | _, _ => false

/-- The number of clock edges in a list of events (41_frame_protocol.md R147). -/
def clockEdges (c : Pin) : PinFile → List Event → Nat
  | _, [] => 0
  | f, ev :: rest => (if isClockEdge c f ev then 1 else 0) + clockEdges c (f.apply ev) rest

/-- A final end: the whole list is done and no command is running (70_reset_and_hazards.md R222), in a run that is not
refused: a refused run never counts as final (60_exceptions.md R176).  DESIGN CHOICE, safe (log entry 23): with an EMPTY
command list a pin map that is not well formed is no final end. -/
def State.final (s : State) : Bool := pinMapOk s.config && decide (s.cpc = s.program.length) && s.seq.isNone

/-- The observation of a final end (70_reset_and_hazards.md R222): the event trace, the pin state it leaves, and the ghost
flag. -/
structure Observation where
  trace  : List Event
  pins   : PinFile
  misuse : Bool
deriving DecidableEq, Repr

/-- What is observed of a state. -/
def State.observe (s : State) : Observation := { trace := s.trace, pins := s.pins, misuse := s.misuse }

end Sys2Proof.Machine
end

