-- ==== Sys2Proof/Machine/Sequencer.lean ====
section
/-!
DEFINITION. The sequencer of 10_state.md R39, one GPIO event or one colour read at a time (00_scope.md R7 allows a per-event
model; 10_state.md R50 says that the result is the same).
-/

namespace Sys2Proof.Machine

/-- The length of a command's byte sequence (70_reset_and_hazards.md R210). -/
def byteCount : Instr → Nat
  | .startFrame => 4
  | .sendColor _ _ _ _ => 4
  | .endFrame count => 1 + endZeros count
  | .write _ count _ => frameLength count

/-- Byte number `n` of the running command's byte sequence (41_frame_protocol.md R130, R136, R140, 42_batch_write.md
R160).  For an LED word of WRITE it uses the colour bytes read for the current LED. -/
def Running.byteAt (r : Running) (n : Nat) : Byte :=
  match r.cmd with
  | .startFrame => 0x00#8
  | .sendColor red green blue br => (ledWord red green blue br).getD n 0x00#8
  | .endFrame _ => if n = 0 then 0xFF#8 else 0x00#8
  | .write _ count br =>
    if n < 4 then 0x00#8
    else if n < 4 + 4 * count.toNat then
      (ledWord (r.colour.getD 0 0x00#8) (r.colour.getD 1 0x00#8) (r.colour.getD 2 0x00#8) br).getD ((n - 4) % 4) 0x00#8
    else if n = 4 + 4 * count.toNat then 0xFF#8
    else 0x00#8

/-- Byte number `n` is the header of an LED word of WRITE, whose colour is read first (20_memory.md R64). -/
def startsLed (i : Instr) (n : Nat) : Bool :=
  match i with
  | .startFrame => false
  | .sendColor _ _ _ _ => false
  | .endFrame _ => false
  | .write _ count _ => decide (4 ≤ n ∧ n < 4 + 4 * count.toNat ∧ (n - 4) % 4 = 0)

/-- The sequencer when a command is accepted (10_state.md R39): INIT comes first in START_FRAME and WRITE, the first byte
in SEND_COLOR and END_FRAME. -/
def Running.accepted (k : Nat) (i : Instr) : Running :=
  let first := match i with
    | .startFrame => SeqPos.init 0
    | .sendColor _ _ _ _ => SeqPos.bit 0 7 .setData
    | .endFrame _ => SeqPos.bit 0 7 .setData
    | .write _ _ _ => SeqPos.init 0
  { inst := k, cmd := i, pos := first, led := 0, colour := [] }

/-- The sequencer about to send byte number `n`; `none` when the command has no such byte. -/
def Running.atByte (r : Running) (n : Nat) : Option Running :=
  if byteCount r.cmd ≤ n then none
  else if startsLed r.cmd n then some { r with pos := .read, led := (n - 4) / 4, colour := [] }
  else some { r with pos := .bit n 7 .setData }

/-- The host issues command `i` to the addressed instance: the misuse conditions are recorded and the operands latched. -/
def State.accept (s : State) (i : Instr) (pp : PinPair) : State :=
  (s.flagMisuse (misuseOf i pp s)).setSeq (some (Running.accepted s.port i))

/-- The command goes on as the sequencer says, or is complete. -/
def State.goOn (s : State) (i : Instr) : Option Running → State
  | some r => s.setSeq (some r)
  | none => s.complete i

/-- One action of a running command: one GPIO event or one colour read; the last event also completes the command
(log entry 12).  `none`: no command is running, or the instance is stuck (20_memory.md R62). -/
def State.tick (s : State) : Option State :=
  match s.seq with
  | none => none
  | some r =>
    match s.config.bindings[r.inst]? with
    | none => none
    | some pp =>
      match r.pos with
      | .init n =>
        some (((s.emitAll ((initEvents pp)[n.val]?).toList)).goOn r.cmd
          (if n.val = 3 then r.atByte 0 else some { r with pos := .init (n + 1) }))
      | .read =>
        match r.cmd with
        | .write base _ _ =>
          match s.memRead (colourAddr base r.led r.colour.length) with
          | none => none
          | some v =>
            let next := { r with colour := r.colour ++ [v] }
            some (s.goOn r.cmd (some (if next.colour.length = 3 then { next with pos := .bit (4 + 4 * r.led) 7 .setData }
              else next)))
        | _ => none
      | .bit n i .setData =>
        some ((s.emit (.set pp.data ((r.byteAt n).getLsbD i.val))).goOn r.cmd (some { r with pos := .bit n i .raiseClock }))
      | .bit n i .raiseClock =>
        some ((s.emit (.set pp.clk true)).goOn r.cmd (some { r with pos := .bit n i .lowerClock }))
      | .bit n i .lowerClock =>
        some ((s.emit (.set pp.clk false)).goOn r.cmd
          (if i.val = 0 then r.atByte (n + 1) else some { r with pos := .bit n (i - 1) .setData }))

/-- `n` actions of the running command. -/
def State.ticks : Nat → State → Option State
  | 0, s => some s
  | n + 1, s =>
    match s.tick with
    | none => none
    | some t => State.ticks n t

end Sys2Proof.Machine
end

