-- ==== Sys2Proof/Machine/Step.lean ====
section
/-!
DEFINITION. One step: the host's next command, run to completion (00_scope.md R7, 10_state.md R50), with the priority of
outcomes of 60_exceptions.md R179.
-/

namespace Sys2Proof.Machine

/-- One step.  A pin map that is not well formed refuses the whole run (10_state.md R35), an empty
command list included (log entry 23, DESIGN CHOICE); a stuck instance has no step
(60_exceptions.md R181); then the command at `cpc` is taken on its instance's port. -/
def step (s : State) : Host.Outcome State Fault Refusal :=
  if pinMapOk s.config = false then .refused .badPinMap
  else match s.stuckAt with
    | some addr => .fault (.memNotAdmitted addr s)
    | none =>
      match s.fetch with
      | .ended => .fault .runEnded
      | .rejected r => .refused r
      | .command k i => exec i (s.setPort k)

/-- The words of a program up to word `n`, with illegal zero words where it is shorter. -/
def wordsUpTo (n : Nat) (ws : List PortWord) (k : Nat) : List PortWord :=
  ws.take n ++ List.replicate (n - ws.length) { inst := k, word := 0#32 }

/-- The state with the instruction whose bits are the low `nbits` of `w` (bits 31..0 the first command word, bits 63..32
the second) as the next command of the host's list, addressed to the instance on port `s.port` (log entry 16). -/
def State.withFetchWord (s : State) (nbits w : Nat) : State :=
  let ws := match s.program with
    | .words ws => ws
    | .records _ => []
  { s with program := .words (wordsUpTo s.cpc ws s.port ++
      [{ inst := s.port, word := BitVec.ofNat 32 (w % 2 ^ nbits) },
       { inst := s.port, word := BitVec.ofNat 32 (w % 2 ^ nbits / 2 ^ 32) }] ++ ws.drop (s.cpc + 2)) }

end Sys2Proof.Machine
end

