-- ==== Sys2Proof/Safety.lean ====
section
/-!
DEFINITION. What statements take as premises: a state that accepts a command, a clean final end, and the invariant every
step keeps.
-/

namespace Sys2Proof.Machine

/-- The host may issue a command to the instance on port `s.port`, whose pins are `pp`: the pin map is well formed
(10_state.md R35), the instance exists and no command is running (R50). -/
structure Accepts (s : State) (pp : PinPair) : Prop where
  pinMap : pinMapOk s.config = true
  bound  : s.config.bindings[s.port]? = some pp
  idle   : s.seq = none

/-- The lines of an instance are outputs with the clock low, as INIT and every command after it leave them
(10_state.md R45, R46). -/
structure LinesReady (f : PinFile) (pp : PinPair) : Prop where
  clkOut  : f.oeBit pp.clk = true
  dataOut : f.oeBit pp.data = true
  clkLow  : f.latch pp.clk = false

/-- A clean end: a final end (which a refused run never has, log entry 23) with no misuse, the premises of a claim about a run (70_reset_and_hazards.md R222). -/
def State.cleanEnd (s : State) : Bool := s.final && !s.misuse

/-- Every colour read of the array is admitted by the platform (20_memory.md R62). -/
def arrayAdmitted (s : State) (base : Addr) (count : Count) : Prop :=
  ∀ i j, i < count.toNat → j < 3 → admits s.config (colourAddr base i j) = true

/-- The colours a WRITE reads, as host memory stands (20_memory.md R61, R71). -/
def arrayColours (s : State) (base : Addr) (count : Count) : List Colour :=
  (List.range count.toNat).map fun i =>
    { r := hostByte s.mem (colourAddr base i 0)
      g := hostByte s.mem (colourAddr base i 1)
      b := hostByte s.mem (colourAddr base i 2) }

/-- The bytes of a complete frame (30_encoding.md R84). -/
def frameBytes (colours : List Colour) (br : Brightness) (count : Count) : List Byte :=
  startFrameBytes ++ colours.flatMap (fun c => ledWord c.r c.g c.b br) ++ endFrameBytes count

/-- The byte sequence of a command: the arguments of its TRANSFER calls, in order (40_bit_transfer.md R119). -/
def commandBytes (i : Instr) (s : State) : List Byte :=
  match i with
  | .startFrame => startFrameBytes
  | .sendColor r g b br => ledWord r g b br
  | .endFrame count => endFrameBytes count
  | .write base count br => frameBytes (arrayColours s base count) br count

/-- The commands that run INIT (40_bit_transfer.md R111). -/
def runsInit : Instr → Bool
  | .startFrame => true
  | .sendColor _ _ _ _ => false
  | .endFrame _ => false
  | .write _ _ _ => true

/-- The event list of a command: INIT's events, if it runs INIT, then the events of each byte (40_bit_transfer.md R119). -/
def commandEvents (i : Instr) (pp : PinPair) (s : State) : List Event :=
  (if runsInit i then initEvents pp else []) ++ (commandBytes i s).flatMap (transferEvents pp)

/-- What the host must have provided for the command to complete: the interface admits it (42_batch_write.md R168), and a
WRITE's array fits below the top of memory and can be read (20_memory.md R62, R63). -/
def Completable (i : Instr) (s : State) : Prop :=
  match i with
  | .startFrame => s.interface = .concrete
  | .sendColor _ _ _ _ => s.interface = .concrete
  | .endFrame _ => s.interface = .concrete
  | .write base count _ => addrOverflow base count = false ∧ arrayAdmitted s base count

/-- What every command leaves as it was: the configuration, host memory byte by byte, the command list, the interface, the
port, every pin other than the two of its instance, and the ghost state of every other instance. -/
structure Frame (s t : State) (pp : PinPair) : Prop where
  config    : t.config = s.config
  mem       : ∀ a, hostByte t.mem a = hostByte s.mem a
  program   : t.program = s.program
  interface : t.interface = s.interface
  port      : t.port = s.port
  oe        : ∀ p, p ≠ pp.clk → p ≠ pp.data → t.pins.oeBit p = s.pins.oeBit p
  latch     : ∀ p, p ≠ pp.clk → p ≠ pp.data → t.pins.latch p = s.pins.latch p
  ghost     : ∀ k, k ≠ s.port → t.ghostOf k = s.ghostOf k

/-- The first words that 30_encoding.md R97 reserves: a reserved OP, or a nonzero reserved field of FS, FE or FW. -/
def ReservedWord (w : Word) : Prop :=
  w.toNat / 2 ^ 29 ∈ [0, 5, 6, 7] ∨
  (w.toNat / 2 ^ 29 = 1 ∧ w.toNat % 2 ^ 29 ≠ 0) ∨
  (w.toNat / 2 ^ 29 = 3 ∧ w.toNat / 2 ^ 16 % 2 ^ 13 ≠ 0) ∨
  (w.toNat / 2 ^ 29 = 4 ∧ w.toNat / 2 ^ 16 % 2 ^ 8 ≠ 0)

/-- The second word that the command at word `n` of a stream would have: the next word, if it came in on the same port. -/
def secondWord (ws : List PortWord) (n : Nat) (w : PortWord) : Option Word :=
  match ws[n + 1]? with
  | none => none
  | some w' => if w'.inst = w.inst then some w'.word else none

/-- A step from `s` reaches the command list: the pin map is well formed and no instance is stuck. -/
structure Steps (s : State) : Prop where
  pinMap : pinMapOk s.config = true
  free   : s.stuckAt = none

/-- Two states that differ only in the ghost state (10_state.md R40 to R42). -/
structure SameButGhost (s t : State) : Prop where
  config    : t.config = s.config
  pins      : t.pins = s.pins
  seq       : t.seq = s.seq
  cpc       : t.cpc = s.cpc
  trace     : t.trace = s.trace
  mem       : t.mem = s.mem
  program   : t.program = s.program
  interface : t.interface = s.interface
  port      : t.port = s.port

/-- The number of GPIO events of a command (70_reset_and_hazards.md R210). -/
def eventCount : Instr → Nat
  | .startFrame => 100
  | .sendColor _ _ _ _ => 96
  | .endFrame count => 24 * (6 + count.toNat / 16)
  | .write _ count _ => 4 + 24 * (10 + 4 * count.toNat + count.toNat / 16)

/-- The number of memory reads of a command (70_reset_and_hazards.md R210). -/
def readCount : Instr → Nat
  | .startFrame => 0
  | .sendColor _ _ _ _ => 0
  | .endFrame _ => 0
  | .write _ count _ => 3 * count.toNat

/-- Another instance that shares the clock pin is streaming (60_exceptions.md R190). -/
def SharedClockStreaming (s : State) (pp : PinPair) : Prop :=
  ∃ k pk, k ≠ s.port ∧ s.config.bindings[k]? = some pk ∧ pk.clk = pp.clk ∧ (s.ghostOf k).phase = .streaming

/-- A list of commands on one port, each run to completion, stopping at the first that does not complete. -/
def execAll : List Instr → State → Host.Outcome State Fault Refusal
  | [], s => .next s
  | i :: rest, s =>
    match exec i s with
    | .next t => execAll rest t
    | .fault r => .fault r
    | .refused r => .refused r

/-- The invariant of the machine between commands. -/
structure Inv (s : State) : Prop where
  /-- Host memory is in canonical form (20_memory.md R60). -/
  mem : Memory.wf s.mem
  /-- No command is running (10_state.md R39, R50). -/
  idle : s.seq = none
  /-- `cpc` never passes the end of the list (10_state.md R48). -/
  cpc : s.cpc ≤ s.program.length
  /-- The pin tables are in canonical form. -/
  oe : Canonical false s.pins.oe
  q : Sorted s.pins.q
  /-- The ghost table is in canonical form. -/
  ghost : Canonical Ghost.initial s.ghost
  /-- Only instances that exist have ghost state other than the reset value. -/
  ghostKeys : ∀ e ∈ s.ghost, e.1 < s.config.bindings.length
  /-- The pin state is what the event trace makes of the reset state (40_bit_transfer.md R110). -/
  replay : s.pins = s.trace.foldl PinFile.apply PinFile.initial
  /-- A driven line's latch has been written (10_state.md R31). -/
  written : ∀ p, s.pins.oeBit p = true → (find? p s.pins.q).isSome
  /-- Every clock latch is 0, once written (10_state.md R45). -/
  clkLow : ∀ pp ∈ s.config.bindings, find? pp.clk s.pins.q ≠ some true
  /-- The clock line of an instance whose data line is an output is an output (40_bit_transfer.md R112). -/
  bothOut : ∀ pp ∈ s.config.bindings, s.pins.oeBit pp.data = true → s.pins.oeBit pp.clk = true
  /-- Without misuse, the data latch of an idle instance is 0, once written (10_state.md R45, R46). -/
  idleLow : s.misuse = false → ∀ k pp, s.config.bindings[k]? = some pp → (s.ghostOf k).phase = .idle →
    find? pp.data s.pins.q ≠ some true
  /-- The lines of a streaming instance are outputs (41_frame_protocol.md R130). -/
  streamingOut : ∀ k pp, s.config.bindings[k]? = some pp → (s.ghostOf k).phase = .streaming →
    s.pins.oeBit pp.data = true

end Sys2Proof.Machine
end

