-- ==== Sys2Proof/Certificates/Slice0/Obligations.lean ====
section
/-!
DEFINITION. The statements for the provers.  Each docstring names the rules of spec/ it formalises, or says what it is
derived from.  `Accepts`, `Completable`, `Frame` and the other premises stand in Safety.lean.
-/

open Sys2Proof Sys2Proof.Machine

/-! ## Encoding -/

/-- Derived from R92 to R95, R98: every command, whatever words follow it, decodes from its encoding to itself, with its
length in words. -/
def Obligations.DecodeOfEncodeIsTheCommand : Prop :=
  ∀ (i : Instr) (rest tl : List Word) (w : Word), encode i ++ rest = w :: tl →
    decode w tl.head? = .ok (i, i.wordCount) ∧ (encode i).length = i.wordCount

/-- Derived from R98, R99: each word has one meaning; what decodes is the encoding of the command it decodes to. -/
def Obligations.EncodeOfDecodeIsTheWords : Prop :=
  ∀ (w : Word) (next : Option Word) (i : Instr) (n : Nat), decode w next = .ok (i, n) →
    n = i.wordCount ∧ encode i = (w :: next.toList).take n

/-- R97: a step refuses the first word as a reserved encoding exactly when R97 reserves it; a word that is not reserved and
has a word after it decodes; the all-zeros word is reserved. -/
def Obligations.ReservedEncodingsAreRefused : Prop :=
  (∀ (s : State) (ws : List PortWord) (w : PortWord), Steps s → s.program = .words ws → ws[s.cpc]? = some w →
    (step s = .refused .reservedEncoding ↔ ReservedWord w.word)) ∧
  (∀ w next : Word, ¬ ReservedWord w → ∃ c, decode w (some next) = .ok c) ∧
  ReservedWord 0x00000000#32

/-- R99: the match and mask pairs of the opcode map say which command a word is; no word matches two rows; a word that
matches none is refused. -/
def Obligations.OpcodeMapSelectsTheCommand : Prop :=
  ∀ w next : Word,
    (decode w (some next) = .ok (.startFrame, 1) ↔ w &&& 0xFFFFFFFF#32 = 0x20000000#32) ∧
    ((∃ r g b br, decode w (some next) = .ok (.sendColor r g b br, 1)) ↔ w &&& 0xE0000000#32 = 0x40000000#32) ∧
    ((∃ count, decode w (some next) = .ok (.endFrame count, 1)) ↔ w &&& 0xFFFF0000#32 = 0x60000000#32) ∧
    ((∃ base count br, decode w (some next) = .ok (.write base count br, 2)) ↔ w &&& 0xE0FF0000#32 = 0x80000000#32) ∧
    ((w &&& 0xFFFFFFFF#32 ≠ 0x20000000#32 ∧ w &&& 0xE0000000#32 ≠ 0x40000000#32 ∧
      w &&& 0xFFFF0000#32 ≠ 0x60000000#32 ∧ w &&& 0xE0FF0000#32 ≠ 0x80000000#32) ↔
      decode w (some next) = .error .reservedEncoding)

/-- R96: OP `100` means two words, the second the base whatever its bits spell; every other OP means one word and the word
after it is not looked at; a WRITE first word that is the last word of the stream is refused as truncated. -/
def Obligations.LengthDecoding : Prop :=
  (∀ (w : Word) (next : Option Word) (i : Instr) (n : Nat), decode w next = .ok (i, n) →
    n = if w.toNat / 2 ^ 29 = 4 then 2 else 1) ∧
  (∀ w : Word, w.toNat / 2 ^ 29 = 4 → w.toNat / 2 ^ 16 % 2 ^ 8 = 0 → ∀ base : Word,
    decode w (some base) = .ok (.write base (BitVec.ofNat 16 w.toNat) (BitVec.ofNat 5 (w.toNat / 2 ^ 24)), 2)) ∧
  (∀ (w : Word) (next : Option Word), w.toNat / 2 ^ 29 ≠ 4 → decode w next = decode w none) ∧
  (∀ (s : State) (ws : List PortWord) (w : PortWord), Steps s → s.program = .words ws → ws[s.cpc]? = some w →
    s.cpc + 1 = ws.length → w.word.toNat / 2 ^ 29 = 4 → w.word.toNat / 2 ^ 16 % 2 ^ 8 = 0 →
    step s = .refused .truncated)

/-- Derived from 95_test_vectors.md 2.5: words written out from the formats of R92 to R95 decode to what they stand for. -/
def Obligations.SampleWordsDecode : Prop :=
  decode 0x20000000#32 none = .ok (.startFrame, 1) ∧
  decode 0x5F010203#32 none = .ok (.sendColor 1#8 2#8 3#8 31#5, 1) ∧
  decode 0x6000FFFF#32 none = .ok (.endFrame 0xFFFF#16, 1) ∧
  decode 0x9F000001#32 (some 0x00001000#32) = .ok (.write 0x1000#32 1#16 31#5, 2) ∧
  decode 0x20000001#32 none = .error .reservedEncoding ∧
  decode 0x9F000001#32 none = .error .truncated

/-- Derived from R48, R98: when the words at `cpc` decode to a command, the step is `exec` of that command on the port it
came in on, and nothing else.  That the second word of a WRITE is for the same port is the model's choice (log entry 7). -/
def Obligations.StepRunsTheDecodedCommand : Prop :=
  ∀ (s : State) (ws : List PortWord) (w : PortWord) (i : Instr) (n : Nat), Steps s → s.program = .words ws →
    ws[s.cpc]? = some w → decode w.word (secondWord ws s.cpc w) = .ok (i, n) → step s = exec i (s.setPort w.inst)

/-- Derived from R90, R179: in the record form the step is `exec` of the assembled command on its port, or the refusal of
the syntax. -/
def Obligations.StepRunsTheRecordedCommand : Prop :=
  ∀ (s : State) (rs : List PortRecord) (c : PortRecord), Steps s → s.program = .records rs → rs[s.cpc]? = some c →
    (∀ i, assemble c.cmd = .ok i → step s = exec i (s.setPort c.inst)) ∧
    (∀ r, assemble c.cmd = .error r → step s = .refused r)

/-! ## Operands -/

/-- R86: the brightness field is the operand modulo 32, a negative one in two's complement, 31 when omitted; and masking
does not change the header byte of any 8-bit value. -/
def Obligations.BrightnessIsMasked : Prop :=
  (∀ br : Int, ((maskBrightness br).toNat : Int) = br % 32) ∧
  maskBrightness (-1) = 31#5 ∧ maskBrightness 32 = 0#5 ∧
  (∀ (r g b br : Int) (i : Instr), assemble (.sendColor r g b (some br)) = .ok i →
    ∃ r' g' b' : Byte, i = .sendColor r' g' b' (maskBrightness br)) ∧
  (∀ (r g b : Int) (i : Instr), assemble (.sendColor r g b none) = .ok i → ∃ r' g' b' : Byte, i = .sendColor r' g' b' 31#5) ∧
  (∀ (base : Addr) (count br : Int) (i : Instr), assemble (.write base count (some br)) = .ok i →
    ∃ count' : Count, i = .write base count' (maskBrightness br)) ∧
  (∀ (base : Addr) (count : Int) (i : Instr), assemble (.write base count none) = .ok i →
    ∃ count' : Count, i = .write base count' 31#5) ∧
  (∀ v : Byte, 0xE0#8 ||| v = 0xE0#8 ||| (v &&& 0x1F#8))

/-- R88: a count outside `0..65535` is refused, and one inside is passed on unchanged, not masked. -/
def Obligations.CountIsRangeChecked : Prop :=
  (∀ c : Int, assemble (.endFrame c) = .error .countRange ↔ ¬ (0 ≤ c ∧ c ≤ 65535)) ∧
  (∀ (base : Addr) (c : Int) (br : Option Int),
    assemble (.write base c br) = .error .countRange ↔ ¬ (0 ≤ c ∧ c ≤ 65535)) ∧
  (∀ c : Int, 0 ≤ c → c ≤ 65535 → ∃ count : Count, (count.toNat : Int) = c ∧ assemble (.endFrame c) = .ok (.endFrame count) ∧
    ∀ (base : Addr) (br : Option Int), assemble (.write base c br) = .ok (.write base count (brightnessOperand br)))

/-- Derived from R86, R87, R100, R101, R138: a channel outside `0..255` is refused; with every channel inside, SEND_COLOR
always assembles, to the same channel values and the masked brightness; the two spellings of SEND_COLOR are one command;
START_FRAME always assembles. -/
def Obligations.ChannelsAreRangeChecked : Prop :=
  assemble .startFrame = .ok .startFrame ∧
  ∀ (r g b : Int) (br : Option Int), assemble (.sendColorTriple (r, g, b) br) = assemble (.sendColor r g b br) ∧
    (assemble (.sendColor r g b br) = .error .channelRange ↔
      ¬ ((0 ≤ r ∧ r ≤ 255) ∧ (0 ≤ g ∧ g ≤ 255) ∧ (0 ≤ b ∧ b ≤ 255))) ∧
    ((0 ≤ r ∧ r ≤ 255) → (0 ≤ g ∧ g ≤ 255) → (0 ≤ b ∧ b ≤ 255) → ∃ r' g' b' : Byte,
      (r'.toNat : Int) = r ∧ (g'.toNat : Int) = g ∧ (b'.toNat : Int) = b ∧
      assemble (.sendColor r g b br) = .ok (.sendColor r' g' b' (brightnessOperand br)))

/-! ## The bit-transfer engine and the pins -/

/-- R110: Emit appends the event and writes one bit of one pin; nothing else changes. -/
def Obligations.EmitWritesOneBitOfOnePin : Prop :=
  ∀ (s : State) (ev : Event),
    (s.emit ev).trace = s.trace ++ [ev] ∧
    (∀ p, ev = .cfg p → (s.emit ev).pins.oeBit p = true ∧ (∀ a, a ≠ p → (s.emit ev).pins.oeBit a = s.pins.oeBit a) ∧
      ∀ a, (s.emit ev).pins.latch a = s.pins.latch a) ∧
    (∀ p l, ev = .set p l → (s.emit ev).pins.latch p = l ∧ (∀ a, a ≠ p → (s.emit ev).pins.latch a = s.pins.latch a) ∧
      ∀ a, (s.emit ev).pins.oeBit a = s.pins.oeBit a) ∧
    { s.emit ev with trace := s.trace, pins := s.pins } = s

/-- R30: only `Cfg(p)` writes a direction bit and sets it; no step takes it back to 0; after reset it is 0 for every pin. -/
def Obligations.OutputsStayOutputs : Prop :=
  (∀ (f : PinFile) (ev : Event) (p : Pin), (f.apply ev).oeBit p = true ↔ ev = .cfg p ∨ f.oeBit p = true) ∧
  (∀ (s t : State) (p : Pin), step s = .next t → s.pins.oeBit p = true → t.pins.oeBit p = true) ∧
  (∀ (s : State) (p : Pin), s.resetEvent.pins.oeBit p = false)

/-- R32: a driven line carries its latch, an undriven one `Z`. -/
def Obligations.WireIsTheLatchOfADrivenPin : Prop :=
  ∀ (f : PinFile) (p : Pin), (f.oeBit p = true → f.wire p = .driven (f.latch p)) ∧ (f.oeBit p = false → f.wire p = .z)

/-- R112: INIT emits its four events in order and leaves both lines outputs at 0; it touches no other pin, makes no clock
edge on a clock line that is already an output at 0, and gives the example of the rule from reset. -/
def Obligations.InitDrivesBothLinesLow : Prop :=
  ∀ (s : State) (pp : PinPair),
    (s.init pp).trace = s.trace ++ [.set pp.data false, .cfg pp.data, .set pp.clk false, .cfg pp.clk] ∧
    (s.init pp).pins.oeBit pp.data = true ∧ (s.init pp).pins.oeBit pp.clk = true ∧
    (s.init pp).pins.latch pp.data = false ∧ (s.init pp).pins.latch pp.clk = false ∧
    (∀ p, p ≠ pp.clk → p ≠ pp.data →
      (s.init pp).pins.oeBit p = s.pins.oeBit p ∧ (s.init pp).pins.latch p = s.pins.latch p) ∧
    (s.pins.oeBit pp.clk = true → s.pins.latch pp.clk = false → clockEdges pp.clk s.pins (initEvents pp) = 0) ∧
    (s.resetEvent.init { clk := 0, data := 1 }).pins.wire 0 = .driven false ∧
    (s.resetEvent.init { clk := 0, data := 1 }).pins.wire 1 = .driven false

/-- R113: INIT makes no rising edge on any clock line, so no receiver samples during it; and from a clock line that is not
driven to 1, the line is at every point of INIT undriven or 0, and once it is 0 it stays so. -/
def Obligations.InitMakesNoRisingEdge : Prop :=
  ∀ (pp : PinPair) (f : PinFile),
    (∀ strip : PinPair, sampledBits strip f (initEvents pp) = []) ∧
    (f.wire pp.clk ≠ .driven true → ∀ n,
      (((initEvents pp).take n).foldl PinFile.apply f).wire pp.clk = .z ∨
      (((initEvents pp).take n).foldl PinFile.apply f).wire pp.clk = .driven false) ∧
    (∀ n, (((initEvents pp).take n).foldl PinFile.apply f).wire pp.clk = .driven false →
      (((initEvents pp).take (n + 1)).foldl PinFile.apply f).wire pp.clk = .driven false)

/-- R114: TRANSFER emits exactly 24 events, most significant bit first, each bit data then clock up then clock down; it
leaves the clock latch 0 and the data latch at bit 0, and changes no direction bit and no other pin. -/
def Obligations.TransferSendsEightBits : Prop :=
  ∀ (s : State) (pp : PinPair) (v : Byte), pp.clk ≠ pp.data →
    (s.transferAll pp [v]).trace = s.trace ++
      [.set pp.data (v.getLsbD 7), .set pp.clk true, .set pp.clk false,
       .set pp.data (v.getLsbD 6), .set pp.clk true, .set pp.clk false,
       .set pp.data (v.getLsbD 5), .set pp.clk true, .set pp.clk false,
       .set pp.data (v.getLsbD 4), .set pp.clk true, .set pp.clk false,
       .set pp.data (v.getLsbD 3), .set pp.clk true, .set pp.clk false,
       .set pp.data (v.getLsbD 2), .set pp.clk true, .set pp.clk false,
       .set pp.data (v.getLsbD 1), .set pp.clk true, .set pp.clk false,
       .set pp.data (v.getLsbD 0), .set pp.clk true, .set pp.clk false] ∧
    (s.transferAll pp [v]).pins.latch pp.clk = false ∧
    (s.transferAll pp [v]).pins.latch pp.data = v.getLsbD 0 ∧
    (∀ p, (s.transferAll pp [v]).pins.oeBit p = s.pins.oeBit p) ∧
    (∀ p, s.pins.wire p = .z → (s.transferAll pp [v]).pins.wire p = .z) ∧
    (∀ p, p ≠ pp.clk → p ≠ pp.data → (s.transferAll pp [v]).pins.latch p = s.pins.latch p)

/-- Derived from R45, R113, R115: while a command runs, its data line is set only while its clock line is not at 1, in every state a run reaches. -/
def Obligations.DataIsSetOnlyWhileTheClockIsLow : Prop :=
  ∀ (s t : State) (i : Instr) (pp : PinPair) (before after : List Event) (l : Level), Inv s → exec i s = .next t →
    s.config.bindings[s.port]? = some pp → t.trace = s.trace ++ before ++ .set pp.data l :: after →
    (before.foldl PinFile.apply s.pins).wire pp.clk ≠ .driven true

/-- R119: a command's event list is INIT's four events, if it runs INIT, and then the 24 events of each byte of its byte
sequence; if its pins are outputs when the first TRANSFER starts, it adds exactly those bits to its strip's bit stream. -/
def Obligations.CommandAddsExactlyItsBytes : Prop :=
  ∀ (s t : State) (i : Instr) (pp : PinPair), Inv s → exec i s = .next t → s.config.bindings[s.port]? = some pp →
    t.trace = s.trace ++ (if runsInit i then initEvents pp else []) ++ (commandBytes i s).flatMap (transferEvents pp) ∧
    ((runsInit i = true ∨ (s.pins.oeBit pp.clk = true ∧ s.pins.oeBit pp.data = true)) →
      t.bitStream pp = s.bitStream pp ++ ((commandBytes i s).flatMap byteBits).map Wire.driven)

/-- Derived from R118, R119: every step adds a whole number of bytes to every strip's bit stream, shared clock or not, so
byte boundaries never shift. -/
def Obligations.StepKeepsEveryStripByteAligned : Prop :=
  ∀ (s t : State) (strip : PinPair), Inv s → strip ∈ s.config.bindings → step s = .next t →
    ∃ n bits, t.bitStream strip = s.bitStream strip ++ bits ∧ bits.length = 8 * n

/-- R202: between reset and the first INIT the block drives neither line and makes no rising edge: from the reset pin state,
events that hold no `Cfg` of the clock pin sample no bit and leave the clock line undriven, and so for the data line; and a
command that runs no INIT adds no `Cfg` to the trace. -/
def Obligations.NothingIsDrivenBeforeInit : Prop :=
  (∀ (evs : List Event) (strip : PinPair),
    (.cfg strip.clk ∉ evs → sampledBits strip PinFile.initial evs = [] ∧
      (evs.foldl PinFile.apply PinFile.initial).wire strip.clk = .z) ∧
    (.cfg strip.data ∉ evs → (evs.foldl PinFile.apply PinFile.initial).wire strip.data = .z)) ∧
  (∀ (s t : State) (i : Instr) (p : Pin), exec i s = .next t → runsInit i = false →
    .cfg p ∈ t.trace → .cfg p ∈ s.trace)

/-! ## The commands -/

/-- R130: the word `0x20000000` is START_FRAME, which completes whenever it is accepted on a concrete instance: INIT, then four zero bytes; both pins are
outputs at 0; the instance is STREAMING with `nsent` 0; misuse is set if it was STREAMING already (R151 a) or on the shared
clock (R190); `cpc` moves by one command; nothing else changes. -/
def Obligations.StartFrameResult : Prop :=
  decode 0x20000000#32 none = .ok (.startFrame, 1) ∧
  ∀ (s : State) (pp : PinPair), Accepts s pp → s.interface = .concrete →
    ∃ t, exec .startFrame s = .next t ∧
      t.trace = s.trace ++ initEvents pp ++ [0x00#8, 0x00#8, 0x00#8, 0x00#8].flatMap (transferEvents pp) ∧
      t.trace.length = s.trace.length + 100 ∧ t.pins.oeBit pp.clk = true ∧ t.pins.oeBit pp.data = true ∧
      t.pins.latch pp.clk = false ∧ t.pins.latch pp.data = false ∧
      t.ghostOf s.port = { phase := .streaming, nsent := 0 } ∧
      (t.misuse = true ↔ s.misuse = true ∨ (s.ghostOf s.port).phase = .streaming ∨ SharedClockStreaming s pp) ∧
      t.cpc = s.cpc + 1 ∧ t.seq = none ∧ Frame s t pp

/-- R136: SEND_COLOR, in format FC (R93), completes whenever it is accepted on a concrete instance: the bytes `0xE0 + br`, blue, green, red; no
INIT, so no direction bit changes; the data latch is bit 0 of red; `nsent` moves up by one; misuse is set if the instance was
IDLE (R151 b) or on the shared clock (R190). -/
def Obligations.SendColorResult : Prop :=
  (∀ (r g b : Byte) (br : Brightness), decode (0b010#3 ++ br ++ r ++ g ++ b) none = .ok (.sendColor r g b br, 1)) ∧
  ∀ (s : State) (pp : PinPair) (r g b : Byte) (br : Brightness), Accepts s pp → s.interface = .concrete →
    ∃ t, exec (.sendColor r g b br) s = .next t ∧
      t.trace = s.trace ++ [0xE0#8 + br.setWidth 8, b, g, r].flatMap (transferEvents pp) ∧
      t.trace.length = s.trace.length + 96 ∧
      t.pins.latch pp.clk = false ∧ t.pins.latch pp.data = r.getLsbD 0 ∧
      (∀ p, t.pins.oeBit p = s.pins.oeBit p) ∧
      t.ghostOf s.port = { phase := (s.ghostOf s.port).phase, nsent := (s.ghostOf s.port).nsent + 1 } ∧
      (t.misuse = true ↔ s.misuse = true ∨ (s.ghostOf s.port).phase = .idle ∨ SharedClockStreaming s pp) ∧
      t.cpc = s.cpc + 1 ∧ t.seq = none ∧ Frame s t pp

/-- R140: END_FRAME, in format FE (R94), completes whenever it is accepted on a concrete instance: `0xFF` and then `5 + floor(count/16)` zero
bytes; no INIT; both latches are 0; the instance is IDLE; misuse is set under R151 c to e or R190. -/
def Obligations.EndFrameResult : Prop :=
  (∀ count : Count, decode (0b011#3 ++ 0#13 ++ count) none = .ok (.endFrame count, 1)) ∧
  ∀ (s : State) (pp : PinPair) (count : Count), Accepts s pp → s.interface = .concrete →
    ∃ t, exec (.endFrame count) s = .next t ∧
      t.trace = s.trace ++ (0xFF#8 :: List.replicate (5 + count.toNat / 16) 0x00#8).flatMap (transferEvents pp) ∧
      t.trace.length = s.trace.length + 24 * (6 + count.toNat / 16) ∧
      t.pins.latch pp.clk = false ∧ t.pins.latch pp.data = false ∧
      (∀ p, t.pins.oeBit p = s.pins.oeBit p) ∧
      t.ghostOf s.port = { phase := .idle, nsent := (s.ghostOf s.port).nsent } ∧
      (t.misuse = true ↔ s.misuse = true ∨ (s.ghostOf s.port).phase = .idle ∨
        count.toNat ≠ (s.ghostOf s.port).nsent ∨ count.toNat = 0 ∨ SharedClockStreaming s pp) ∧
      t.cpc = s.cpc + 1 ∧ t.seq = none ∧ Frame s t pp

/-- R160: WRITE, in format FW (R95), completes whenever it is accepted and its array fits below the top of memory and is
admitted, through either interface: INIT, the start frame, an LED word `0xE0 + br`, blue, green, red for each colour in host
memory, the end frame; both pins are outputs at 0; the instance is IDLE with `nsent` unchanged; misuse is set under R166 or
R190.  An array that does not fit is refused.  The reads go upward through the array, and the first that is not admitted
leaves the instance stuck after the events already emitted. -/
def Obligations.WriteResult : Prop :=
  (∀ (base : Addr) (count : Count) (br : Brightness),
    decode (0b100#3 ++ br ++ 0#8 ++ count) (some base) = .ok (.write base count br, 2)) ∧
  ∀ (s : State) (pp : PinPair) (base : Addr) (count : Count) (br : Brightness), Accepts s pp →
    (1 ≤ count.toNat ∧ base.toNat + 3 * count.toNat - 1 > 2 ^ 32 - 1 →
      exec (.write base count br) s = .refused .addrOverflow) ∧
    ((count.toNat = 0 ∨ base.toNat + 3 * count.toNat - 1 ≤ 2 ^ 32 - 1) →
    (∀ i j, i < count.toNat → j < 3 → admits s.config (base.toNat + 3 * i + j) = false →
      (∀ a, base.toNat ≤ a → a < base.toNat + 3 * i + j → admits s.config a = true) →
      ∃ left, exec (.write base count br) s = .fault (.memNotAdmitted (base.toNat + 3 * i + j) left) ∧
        left.trace = s.trace ++ initEvents pp ++
          ([0x00#8, 0x00#8, 0x00#8, 0x00#8] ++
            (List.range i).flatMap (fun n => [0xE0#8 + br.setWidth 8, hostByte s.mem (base.toNat + 3 * n + 2),
              hostByte s.mem (base.toNat + 3 * n + 1), hostByte s.mem (base.toNat + 3 * n)])).flatMap (transferEvents pp)) ∧
    ((∀ i j, i < count.toNat → j < 3 → admits s.config (base.toNat + 3 * i + j) = true) →
    ∃ t, exec (.write base count br) s = .next t ∧
      t.trace = s.trace ++ initEvents pp ++
        ([0x00#8, 0x00#8, 0x00#8, 0x00#8] ++
          (List.range count.toNat).flatMap (fun i => [0xE0#8 + br.setWidth 8, hostByte s.mem (base.toNat + 3 * i + 2),
            hostByte s.mem (base.toNat + 3 * i + 1), hostByte s.mem (base.toNat + 3 * i)]) ++
          0xFF#8 :: List.replicate (5 + count.toNat / 16) 0x00#8).flatMap (transferEvents pp) ∧
      t.trace.length = s.trace.length + 4 + 24 * (4 + 4 * count.toNat + 6 + count.toNat / 16) ∧
      t.pins.oeBit pp.clk = true ∧ t.pins.oeBit pp.data = true ∧
      t.pins.latch pp.clk = false ∧ t.pins.latch pp.data = false ∧
      t.ghostOf s.port = { phase := .idle, nsent := (s.ghostOf s.port).nsent } ∧
      (t.misuse = true ↔ s.misuse = true ∨ count.toNat = 0 ∨ (s.ghostOf s.port).phase = .streaming ∨
        SharedClockStreaming s pp) ∧
      t.cpc = s.cpc + s.cmdLength (.write base count br) ∧ t.seq = none ∧ Frame s t pp))

/-- Derived from R34, R43, R60, R168, R188, R189: whatever the command, a next state leaves the configuration, memory, the
command list, the interface, the port, every pin but its instance's two, and every other instance's ghost state as they
were; and it leaves no command running. -/
def Obligations.CommandsKeepTheFrame : Prop :=
  ∀ (s t : State) (i : Instr), exec i s = .next t →
    ∃ pp, s.config.bindings[s.port]? = some pp ∧ Frame s t pp ∧ t.seq = none ∧
      (runsInit i = false → ∀ p, t.pins.oeBit p = s.pins.oeBit p)

/-- R45: the latches after a command: the clock latch is 0; the data latch is bit 0 of red after SEND_COLOR and 0 after the
others. -/
def Obligations.LatchesAfterACommand : Prop :=
  ∀ (s t : State) (i : Instr) (pp : PinPair), exec i s = .next t → s.config.bindings[s.port]? = some pp →
    t.pins.latch pp.clk = false ∧
    (i = .startFrame → t.pins.latch pp.data = false) ∧
    (∀ count, i = .endFrame count → t.pins.latch pp.data = false) ∧
    (∀ r g b br, i = .sendColor r g b br → t.pins.latch pp.data = r.getLsbD 0) ∧
    (∀ base count br, i = .write base count br → t.pins.latch pp.data = false)

/-- R46: after a START_FRAME or WRITE both pins are outputs, and they stay so; after an END_FRAME or WRITE on pins that are
outputs both lines are driven to 0; END_FRAME on pins that are not outputs leaves them undriven. -/
def Obligations.LinesAreLeftDrivingLow : Prop :=
  ∀ (s t : State) (i : Instr) (pp : PinPair), exec i s = .next t → s.config.bindings[s.port]? = some pp →
    (runsInit i = true → t.pins.oeBit pp.clk = true ∧ t.pins.oeBit pp.data = true) ∧
    (∀ p, s.pins.oeBit p = true → t.pins.oeBit p = true) ∧
    (∀ count, i = .endFrame count →
      (s.pins.oeBit pp.clk = true → s.pins.oeBit pp.data = true →
        t.pins.wire pp.clk = .driven false ∧ t.pins.wire pp.data = .driven false) ∧
      (∀ p, s.pins.wire p = .z → t.pins.wire p = .z)) ∧
    (∀ base count br, i = .write base count br →
      t.pins.wire pp.clk = .driven false ∧ t.pins.wire pp.data = .driven false)

/-- R117: INIT emits 4 events and TRANSFER 24, 3 for each bit; and, derived from R210, the number of GPIO events of each
command. -/
def Obligations.EventCountsOfCommands : Prop :=
  (∀ (s : State) (pp : PinPair) (v : Byte), (s.init pp).trace.length = s.trace.length + 4 ∧
    (s.transferAll pp [v]).trace.length = s.trace.length + 24 ∧
    transferEvents pp v = (byteBits v).flatMap (bitEvents pp) ∧ ∀ l, (bitEvents pp l).length = 3) ∧
  (∀ (s t : State) (i : Instr), exec i s = .next t → t.trace.length = s.trace.length + eventCount i)

/-- Derived from R141, R143: the end-frame arithmetic and its exact ranges. -/
def Obligations.EndFrameArithmetic : Prop :=
  ∀ count : Count,
    endZeros count = 5 + (count >>> 4).toNat ∧ 5 ≤ endZeros count ∧ endZeros count ≤ 4100 ∧
    (endZeros count = 5 ↔ count.toNat ≤ 15) ∧ (endZeros count = 4100 ↔ 65520 ≤ count.toNat) ∧
    (endFrameBytes count).length = endZeros count + 1 ∧ frameLength count ≤ 266245 ∧ endZeros count < 2 ^ 13 ∧
    frameLength count < 2 ^ 19 ∧
    ∀ (colours : List Colour) (br : Brightness), colours.length = count.toNat →
      (frameBytes colours br count).length = frameLength count

/-- R142: the events of END_FRAME depend on its count alone: two accepting states with the same pins get the same events,
whatever was sent before, whatever the ghost state and the pins hold. -/
def Obligations.EndFrameDependsOnCountAlone : Prop :=
  ∀ (s s' t t' : State) (pp : PinPair) (count : Count), exec (.endFrame count) s = .next t →
    exec (.endFrame count) s' = .next t' → s.config.bindings[s.port]? = some pp →
    s'.config.bindings[s'.port]? = some pp →
    ∃ evs, t.trace = s.trace ++ evs ∧ t'.trace = s'.trace ++ evs

/-- R147: the zero bytes of the end frame make `80 + 16 floor(count/16)` clock edges, which is at least `65 + count`, with
equality (a slack of one edge over `65 + (count - 1)`) exactly when `count mod 16 = 15`; the `0xFF` byte makes 16 more. -/
def Obligations.EndFrameHasEnoughClockEdges : Prop :=
  ∀ (f : PinFile) (pp : PinPair) (count : Count), pp.clk ≠ pp.data → LinesReady f pp →
    clockEdges pp.clk f ((List.replicate (endZeros count) 0x00#8).flatMap (transferEvents pp)) =
      80 + 16 * (count.toNat / 16) ∧
    65 + count.toNat ≤ 80 + 16 * (count.toNat / 16) ∧
    (65 + count.toNat = 80 + 16 * (count.toNat / 16) ↔ count.toNat % 16 = 15) ∧
    clockEdges pp.clk f (transferEvents pp 0xFF#8) = 16

/-! ## WRITE -/

/-- R162: WRITE of an array and the streaming commands with the same colours give the same event trace, the same pin state
and the same phase; WRITE counts as one command, of two words; it leaves `nsent`, where the sequence leaves the count. -/
def Obligations.WriteEqualsTheStreamingCommands : Prop :=
  ∀ (s : State) (pp : PinPair) (base : Addr) (count : Count) (br : Brightness), Accepts s pp → s.interface = .concrete →
    addrOverflow base count = false → arrayAdmitted s base count →
    ∃ t u, exec (.write base count br) s = .next t ∧ execAll (lowerWrite (arrayColours s base count) br) s = .next u ∧
      t.trace = u.trace ∧ t.pins = u.pins ∧ (t.ghostOf s.port).phase = (u.ghostOf s.port).phase ∧
      (t.ghostOf s.port).nsent = (s.ghostOf s.port).nsent ∧ (u.ghostOf s.port).nsent = count.toNat ∧
      (∀ ws, s.program = .words ws → t.cpc = s.cpc + 2 ∧ u.cpc = s.cpc + (count.toNat + 2)) ∧
      (∀ rs, s.program = .records rs → t.cpc = s.cpc + 1)

/-- R163: the bytes a WRITE adds to its strip's byte stream: their number, four zeros first, the LED words at `4 + 4 i`,
`0xFF` after the last, and `5 + floor(count/16)` zeros at the end. -/
def Obligations.WriteFrameLayout : Prop :=
  ∀ (s t : State) (pp : PinPair) (base : Addr) (count : Count) (br : Brightness), Inv s →
    exec (.write base count br) s = .next t → s.config.bindings[s.port]? = some pp → (s.bitStream pp).length % 8 = 0 →
    ∃ bytes : List Byte, t.byteStream pp = s.byteStream pp ++ bytes.map some ∧
      bytes.length = 4 + 4 * count.toNat + 6 + count.toNat / 16 ∧
      bytes.take 4 = [0x00#8, 0x00#8, 0x00#8, 0x00#8] ∧
      (∀ i, i < count.toNat → (bytes.drop (4 + 4 * i)).take 4 =
        [0b11100000#8 ||| br.setWidth 8, hostByte s.mem (base.toNat + 3 * i + 2), hostByte s.mem (base.toNat + 3 * i + 1),
          hostByte s.mem (base.toNat + 3 * i)]) ∧
      bytes[4 + 4 * count.toNat]? = some 0xFF#8 ∧
      bytes.drop (5 + 4 * count.toNat) = List.replicate (5 + count.toNat / 16) 0x00#8

/-- R164: permuting the colour array permutes the LED words in the same way, and changes nothing else. -/
def Obligations.PermutingColoursPermutesLedWords : Prop :=
  ∀ (s s' t t' : State) (pp : PinPair) (base : Addr) (count : Count) (br : Brightness) (σ : Nat → Nat),
    ((List.range count.toNat).map σ).Perm (List.range count.toNat) → { s' with mem := s.mem } = s →
    (∀ i j, i < count.toNat → j < 3 →
      hostByte s'.mem (colourAddr base i j) = hostByte s.mem (colourAddr base (σ i) j)) →
    s.config.bindings[s.port]? = some pp →
    exec (.write base count br) s = .next t → exec (.write base count br) s' = .next t' →
    { t' with mem := s.mem, trace := t.trace } = t ∧
    ∃ words : Nat → List Byte, (∀ i, (words i).length = 4) ∧
      t.trace = s.trace ++ initEvents pp ++ (startFrameBytes ++ (List.range count.toNat).flatMap words ++
        endFrameBytes count).flatMap (transferEvents pp) ∧
      t'.trace = s.trace ++ initEvents pp ++ (startFrameBytes ++ (List.range count.toNat).flatMap (fun i => words (σ i)) ++
        endFrameBytes count).flatMap (transferEvents pp)

/-- R63: a WRITE is refused for its address exactly when it has at least one colour and the array's last byte lies above
`2^32 - 1`; when it is not refused no address wraps; with no colour the base is ignored and no address is formed. -/
def Obligations.ArrayPastTheTopIsRefused : Prop :=
  ∀ (s : State) (pp : PinPair) (base : Addr) (count : Count) (br : Brightness), Accepts s pp →
    (exec (.write base count br) s = .refused .addrOverflow ↔
      1 ≤ count.toNat ∧ base.toNat + 3 * count.toNat - 1 > 2 ^ 32 - 1) ∧
    (¬ (1 ≤ count.toNat ∧ base.toNat + 3 * count.toNat - 1 > 2 ^ 32 - 1) → ∀ i j, i < count.toNat → j < 3 →
      colourAddr base i j < 2 ^ 32) ∧
    (count.toNat = 0 → ∃ t, exec (.write base count br) s = .next t ∧
      ∀ base', ∃ t', exec (.write base' count br) s = .next t' ∧ t'.trace = t.trace)

/-- Derived from R48, R62, R160, R179, R180 and the model's log entry 10 (DEDUCED): a read the platform admits gives the byte stored there; at the first read it does not admit, a WRITE is stuck with
the events before that point in the trace (INIT, the start frame and the LED words before it), and has no further step.
That the stuck state has the misuse conditions recorded (R160, R179), and `cpc` (R48) and the ghost state not moved, is no
part of R62 and rests on log entry 10. -/
def Obligations.WriteIsStuckAtAReadNotAdmitted : Prop :=
  (∀ (s : State) (a : Nat), admits s.config a = true → s.memRead a = some (hostByte s.mem a)) ∧
  ∀ (s : State) (pp : PinPair) (base : Addr) (count : Count) (br : Brightness) (i j : Nat), Accepts s pp →
    addrOverflow base count = false → i < count.toNat → j < 3 → admits s.config (colourAddr base i j) = false →
    (∀ i' j', j' < 3 → 3 * i' + j' < 3 * i + j → admits s.config (colourAddr base i' j') = true) →
    ∃ left, exec (.write base count br) s = .fault (.memNotAdmitted (base.toNat + 3 * i + j) left) ∧
      left.trace = s.trace ++ initEvents pp ++ (startFrameBytes ++
        ((arrayColours s base count).take i).flatMap (fun c => ledWord c.r c.g c.b br)).flatMap (transferEvents pp) ∧
      left.stuckAt = some (base.toNat + 3 * i + j) ∧ left.tick = none ∧ left.cpc = s.cpc ∧ left.final = false ∧
      left.mem = s.mem ∧ (∀ k, left.ghostOf k = s.ghostOf k) ∧
      (left.misuse = true ↔ s.misuse = true ∨ (s.ghostOf s.port).phase = .streaming ∨ SharedClockStreaming s pp)

/-- R181: a stuck instance stays stuck: no step and no command lifts it; reset does. -/
def Obligations.StuckStaysStuckUntilReset : Prop :=
  ∀ (s t : State) (a : Nat), step s = .fault (.memNotAdmitted a t) →
    step t = .fault (.memNotAdmitted a t) ∧ (∀ i, exec i t = .fault (.memNotAdmitted a t)) ∧ t.tick = none ∧
    t.resetEvent.stuckAt = none

/-- Derived from R60, R61, R71: the outcome of a command depends on host memory through the bytes of its array alone, as they
stand when it is accepted; START_FRAME, SEND_COLOR and END_FRAME do not touch memory. -/
def Obligations.CommandsReadOnlyTheirArray : Prop :=
  ∀ (s t : State) (i : Instr) (mem' : List Host.Cell), exec i s = .next t →
    (∀ base count br, i = .write base count br → ∀ n j, n < count.toNat → j < 3 →
      hostByte mem' (base.toNat + 3 * n + j) = hostByte s.mem (base.toNat + 3 * n + j)) →
    exec i { s with mem := mem' } = .next { t with mem := mem' }

/-- Derived from R60: no command writes host memory, whether it completes or is stuck. -/
def Obligations.HostMemoryIsNeverWritten : Prop :=
  ∀ s : State, (∀ t, step s = .next t → t.mem = s.mem) ∧
    (∀ a t, step s = .fault (.memNotAdmitted a t) → t.mem = s.mem) ∧ (∀ t, s.tick = some t → t.mem = s.mem)

/-! ## The ghost contract state -/

/-- R150: the ghost transitions: START_FRAME to STREAMING with 0 sent, SEND_COLOR one more sent, END_FRAME and WRITE to IDLE;
only the addressed instance moves. -/
def Obligations.GhostTransitions : Prop :=
  ∀ (s t : State) (i : Instr), exec i s = .next t →
    (i = .startFrame → (t.ghostOf s.port).phase = .streaming ∧ (t.ghostOf s.port).nsent = 0) ∧
    (∀ r g b br, i = .sendColor r g b br → (t.ghostOf s.port).phase = (s.ghostOf s.port).phase ∧
      (t.ghostOf s.port).nsent = (s.ghostOf s.port).nsent + 1) ∧
    (∀ count, i = .endFrame count → (t.ghostOf s.port).phase = .idle ∧
      (t.ghostOf s.port).nsent = (s.ghostOf s.port).nsent) ∧
    (∀ base count br, i = .write base count br → (t.ghostOf s.port).phase = .idle ∧
      (t.ghostOf s.port).nsent = (s.ghostOf s.port).nsent) ∧
    ∀ k, k ≠ s.port → t.ghostOf k = s.ghostOf k

/-- R151, R166, R190: exactly when a completed command leaves `misuse` set, checked on the state before it; the flag changes
nothing the block emits. -/
def Obligations.MisuseIsSetExactlyByTheContract : Prop :=
  ∀ (s t : State) (i : Instr) (pp : PinPair), exec i s = .next t → s.config.bindings[s.port]? = some pp →
    (t.misuse = true ↔ s.misuse = true ∨ SharedClockStreaming s pp ∨
      (i = .startFrame ∧ (s.ghostOf s.port).phase = .streaming) ∨
      (∃ r g b br, i = .sendColor r g b br ∧ (s.ghostOf s.port).phase = .idle) ∨
      (∃ count, i = .endFrame count ∧
        ((s.ghostOf s.port).phase = .idle ∨ count.toNat ≠ (s.ghostOf s.port).nsent ∨ count.toNat = 0)) ∨
      (∃ base count br, i = .write base count br ∧ (count.toNat = 0 ∨ (s.ghostOf s.port).phase = .streaming))) ∧
    ∀ (g : List (Nat × Ghost)) (m : Bool),
      ∃ t', exec i { s with ghost := g, misuse := m } = .next t' ∧ t'.trace = t.trace ∧ t'.pins = t.pins

/-- Derived from R42: no step clears the run-wide misuse flag, and reset starts it at false; the conditions that set it are those of
MisuseIsSetExactlyByTheContract, in every step that completes. -/
def Obligations.MisuseIsSticky : Prop :=
  (∀ s t : State, step s = .next t → s.misuse = true → t.misuse = true) ∧
  (∀ (s t : State) (a : Nat), step s = .fault (.memNotAdmitted a t) → s.misuse = true → t.misuse = true) ∧
  (∀ s : State, s.resetEvent.misuse = false)

/-- R43: ghost state never changes the events a command emits, their order, or whether it completes: from two states that
differ only in ghost state a command answers the same kind of outcome with the same events. -/
def Obligations.GhostStateNeverChangesTheEvents : Prop :=
  ∀ (s s' : State) (i : Instr), SameButGhost s s' →
    (∀ t, exec i s = .next t → ∃ t', exec i s' = .next t' ∧ SameButGhost t t') ∧
    (∀ a t, exec i s = .fault (.memNotAdmitted a t) → ∃ t', exec i s' = .fault (.memNotAdmitted a t') ∧ SameButGhost t t') ∧
    (∀ r, exec i s = .refused r → exec i s' = .refused r)

/-- R33: the block never reads pin state: from two states that differ only in the pins, a command emits the same events. -/
def Obligations.PinStateIsNeverRead : Prop :=
  ∀ (s t : State) (i : Instr) (f : PinFile), exec i s = .next t →
    ∃ t' evs, exec i { s with pins := f } = .next t' ∧ t.trace = s.trace ++ evs ∧ t'.trace = s.trace ++ evs ∧
      t' = { t with pins := evs.foldl PinFile.apply f }

/-- Derived from R191: a command on one instance makes edges on the shared clock line that clock every other strip on it; that strip's
data line does not change, so it samples one and the same value at each edge: 0 where it holds 0, `Z` where its data line is
not driven. -/
def Obligations.SharedClockSamplesTheHeldValue : Prop :=
  ∀ (s t : State) (i : Instr) (pp strip : PinPair) (k : Nat), Inv s → exec i s = .next t →
    s.config.bindings[s.port]? = some pp → s.config.bindings[k]? = some strip → k ≠ s.port → strip.clk = pp.clk →
    (runsInit i = true ∨ s.pins.oeBit pp.clk = true) →
    t.pins.wire strip.data = s.pins.wire strip.data ∧
    t.bitStream strip = s.bitStream strip ++ List.replicate (8 * (commandBytes i s).length) (s.pins.wire strip.data) ∧
    (s.misuse = false → (s.ghostOf k).phase = .idle → s.pins.oeBit strip.data = true →
      t.bitStream strip = s.bitStream strip ++ List.replicate (8 * (commandBytes i s).length) (.driven false))

/-! ## Outcomes and their order -/

/-- Derived from R35, R8 and decision D23 (at least one instance), and the model's log entries 13 and 23 (DESIGN CHOICE): the pin
maps that are well formed; any other map refuses the whole run; two instances may share a clock pin.  That the map is checked
at every step (log entry 13), and that a run with an empty command list is refused too (log entry 23), is the model's
choice. -/
def Obligations.BadPinMapRefusesTheRun : Prop :=
  (∀ c : HwConfig, pinMapOk c = true ↔
    c.bindings ≠ [] ∧ (∀ (k : Nat) (pk : PinPair), c.bindings[k]? = some pk → pk.clk ≠ pk.data) ∧
    ∀ (k j : Nat) (pk pj : PinPair), c.bindings[k]? = some pk → c.bindings[j]? = some pj → j ≠ k →
      pk.data ≠ pj.clk ∧ pk.data ≠ pj.data) ∧
  (∀ s : State, pinMapOk s.config = false → step s = .refused .badPinMap) ∧
  (∀ (a : List AddrRange) (c d1 d2 : Pin), c ≠ d1 → c ≠ d2 → d1 ≠ d2 →
    pinMapOk { bindings := [{ clk := c, data := d1 }, { clk := c, data := d2 }], readable := a } = true)

/-- R168: in a capability-interface program START_FRAME, SEND_COLOR and END_FRAME are refused, and a WRITE is the WRITE of
R160: the same outcome as in a concrete program. -/
def Obligations.CapabilityInterfaceIsWriteAlone : Prop :=
  ∀ (s : State) (pp : PinPair), Accepts s pp →
    (s.interface = .capability → exec .startFrame s = .refused .notInCapability ∧
      (∀ r g b br, exec (.sendColor r g b br) s = .refused .notInCapability) ∧
      (∀ count, exec (.endFrame count) s = .refused .notInCapability)) ∧
    (∀ (f : Interface) (base : Addr) (count : Count) (br : Brightness) (t : State), exec (.write base count br) s = .next t →
      exec (.write base count br) { s with interface := f } = .next { t with interface := f })

/-- Derived from R188: a command issued while another is in flight is refused, from the moment a command is accepted (the
model's representation: log entry 11). -/
def Obligations.SecondCommandInFlightIsRefused : Prop :=
  (∀ (s : State) (pp : PinPair) (i : Instr), Steps s → s.config.bindings[s.port]? = some pp → s.seq.isSome →
    (s.interface = .concrete ∨ inCapability i = true) → exec i s = .refused .concurrentHost) ∧
  (∀ (s : State) (pp : PinPair) (i j : Instr), Accepts s pp → (s.interface = .concrete ∨ inCapability j = true) →
    exec j (s.accept i pp) = .refused .concurrentHost)

/-- Derived from R34 and log entry 8 (the model's choice, DESIGN CHOICE): a command addressed to an instance that does not
exist is refused. -/
def Obligations.NoSuchInstanceIsRefused : Prop :=
  ∀ (s : State) (i : Instr), Steps s → s.config.bindings.length ≤ s.port → exec i s = .refused .noSuchInstance

/-- Derived from R179 and the model's log entries 7, 11, 13 and 23 (DESIGN CHOICE): the order of outcomes: the pin map first, then the
decoder, then the interface, then a command in flight, then the address check, and only then the command itself.  Four points
are the model's choice and no part of R179: that the pin map is checked at every step and not once (log entry 13), that an
empty command list on a bad pin map is refused (log entry 23), that a WRITE first word is truncated when the word after it is for another port
(`secondWord`, log entry 7), and that a command in flight is a sequencer that is running (log entry 11). -/
def Obligations.OutcomesAreTakenInOrder : Prop :=
  (∀ s : State, pinMapOk s.config = false → step s = .refused .badPinMap) ∧
  (∀ (s : State) (ws : List PortWord) (w : PortWord) (e : DecodeError), Steps s → s.program = .words ws →
    ws[s.cpc]? = some w → decode w.word (secondWord ws s.cpc w) = .error e → step s = .refused (decodeRefusal e)) ∧
  (∀ (s : State) (pp : PinPair) (i : Instr), Steps s → s.config.bindings[s.port]? = some pp → s.interface = .capability →
    inCapability i = false → exec i s = .refused .notInCapability) ∧
  (∀ (s : State) (pp : PinPair) (base : Addr) (count : Count) (br : Brightness), Steps s →
    s.config.bindings[s.port]? = some pp → s.seq.isSome → exec (.write base count br) s = .refused .concurrentHost) ∧
  (∀ (s : State) (pp : PinPair) (base : Addr) (count : Count) (br : Brightness), Accepts s pp →
    addrOverflow base count = true → exec (.write base count br) s = .refused .addrOverflow)

/-! ## The run -/

/-- R48: `cpc` starts at 0, each completed command moves it by its length (1 word, 2 for WRITE; 1 in the record form), it
never passes the end of the list in a state a run reaches, and at the end of the list the run has ended. -/
def Obligations.CpcAdvancesByTheCommandLength : Prop :=
  (∀ s : State, s.resetEvent.cpc = 0) ∧
  (∀ (s t : State) (k : Nat) (i : Instr), s.fetch = .command k i → step s = .next t →
    (∀ ws, s.program = .words ws → t.cpc = s.cpc + (match i with | .write _ _ _ => 2 | _ => 1)) ∧
    (∀ rs, s.program = .records rs → t.cpc = s.cpc + 1)) ∧
  (∀ s t : State, Inv s → step s = .next t → t.cpc ≤ t.program.length) ∧
  (∀ s : State, Steps s → s.cpc = s.program.length → step s = .fault .runEnded)

/-- Derived from R176, R222: a run with a well-formed pin map and no stuck instance ends exactly where its command list is
used up, and that is its final end; a final end has no step; a run refused for its pin map is never final, which for an empty
command list is the model's choice (log entry 23, DESIGN CHOICE). -/
def Obligations.RunEndsWhereTheListEnds : Prop :=
  (∀ s : State, Inv s → Steps s →
    (step s = .fault .runEnded ↔ s.cpc = s.program.length) ∧ (s.final = true ↔ s.cpc = s.program.length)) ∧
  (∀ s : State, s.final = true → step s = .fault .runEnded) ∧
  (∀ s : State, pinMapOk s.config = false → s.final = false)

/-- R169: the pins of an instance are bound when it is built, and no command can change them, whole or event by event. -/
def Obligations.PinsCannotBeRebound : Prop :=
  (∀ (s t : State) (i : Instr), exec i s = .next t → t.config = s.config) ∧
  (∀ s t : State, step s = .next t → t.config = s.config) ∧
  (∀ (s t : State) (a : Nat), step s = .fault (.memNotAdmitted a t) → t.config = s.config) ∧
  (∀ s t : State, s.tick = some t → t.config = s.config)

/-- R200: the reset event: every direction bit 0, no command running, every instance IDLE with nothing sent, no misuse,
`cpc` 0, an empty trace, the configuration unchanged, no stuck instance; after it the block waits: no event happens until a
command is issued. -/
def Obligations.ResetPutsEveryPieceAtItsResetValue : Prop :=
  ∀ s : State,
    (∀ p, s.resetEvent.pins.oeBit p = false) ∧ s.resetEvent.seq = none ∧
    (∀ k, (s.resetEvent.ghostOf k).phase = .idle ∧ (s.resetEvent.ghostOf k).nsent = 0) ∧
    s.resetEvent.misuse = false ∧ s.resetEvent.cpc = 0 ∧ s.resetEvent.trace = [] ∧
    s.resetEvent.config = s.config ∧ s.resetEvent.stuckAt = none ∧ s.resetEvent.tick = none

/-- Derived from R49, R200 and the model's log entries 3 and 6: the invariant holds at `State.reset` and at the start of
every run whose memory is in canonical form. -/
def Obligations.InvariantHoldsAtReset : Prop :=
  Inv State.reset ∧ ∀ (c : HwConfig) (mem : List Host.Cell) (p : Program) (f : Interface), Memory.wf mem →
    Inv (State.start c mem p f)

/-- Derived from R30, R31, R45, R46, R48, R50, R110, R150: every step keeps the invariant of Safety.lean. -/
def Obligations.EveryStepKeepsTheInvariant : Prop :=
  ∀ s t : State, Inv s → step s = .next t → Inv t

/-- Derived from R50, R210: running a command event by event gives the result of running it as one step: a command that completes is reached
after one action per GPIO event and per memory read, and one that gets stuck leaves the same stuck state, which has no
further action.  The number of actions rests on the model's choice (log entry 12, DESIGN CHOICE): a read is one action, and
the last event also completes the command. -/
def Obligations.EventByEventIsTheSameAsOneStep : Prop :=
  ∀ (s : State) (i : Instr) (pp : PinPair), Accepts s pp →
    (∀ t, exec i s = .next t → State.ticks (eventCount i + readCount i) (s.accept i pp) = some t ∧ t.tick = none) ∧
    (∀ a t, exec i s = .fault (.memNotAdmitted a t) → ∃ n, State.ticks n (s.accept i pp) = some t ∧ t.tick = none)

/-- Derived from R60, R71: a host store is seen by the next read of that byte and changes no other; it keeps the canonical
form of memory, in which two memories that hold the same bytes are the same data. -/
def Obligations.HostStoresAreSeen : Prop :=
  (∀ (s : State) (addr : Addr) (v : Byte),
    hostByte (s.hostStore addr v).mem addr.toNat = v ∧
    (∀ a, a ≠ addr.toNat → hostByte (s.hostStore addr v).mem a = hostByte s.mem a) ∧
    (Memory.wf s.mem → Memory.wf (s.hostStore addr v).mem)) ∧
  (∀ m m' : List Host.Cell, Memory.wf m → Memory.wf m' → (∀ a, hostByte m a = hostByte m' a) → m = m')

/-! ## The observation -/

/-- Derived from R7, R32, R118: the wire waveform of every pin has its level before each event and after the last; at the end
of a run it is the wire level; and the bit stream of a strip is its data waveform taken where its clock waveform goes from 0
to 1. -/
def Obligations.WaveformsGiveTheBitStream : Prop :=
  (∀ (p : Pin) (f : PinFile) (evs : List Event) (n : Nat), n ≤ evs.length →
    (waveform p f evs)[n]? = some (((evs.take n).foldl PinFile.apply f).wire p)) ∧
  (∀ (s : State) (p : Pin), Inv s → (s.waveform p)[s.trace.length]? = some (s.pins.wire p)) ∧
  (∀ (s : State) (pp : PinPair), pp ∈ s.config.bindings →
    (pp.clk, s.waveform pp.clk) ∈ s.observeRun.waves ∧ (pp.data, s.waveform pp.data) ∈ s.observeRun.waves) ∧
  ∀ (s : State) (strip : PinPair), s.bitStream strip = (List.range s.trace.length).filterMap fun n =>
    if (s.waveform strip.clk)[n]? = some (.driven false) ∧ (s.waveform strip.clk)[n + 1]? = some (.driven true) then
      (s.waveform strip.data)[n + 1]?
    else none
end

