-- ==== Sys2Proof/Laws/State.lean ====
section
/-! SUPPORT. One lemma per field per update of State, all true by rfl. -/

namespace Sys2Proof.Machine

section
variable (s : State)

@[simp] theorem State.emitAll_config (evs : List Event) : (s.emitAll evs).config = s.config := rfl
@[simp] theorem State.emitAll_pins (evs : List Event) : (s.emitAll evs).pins = evs.foldl PinFile.apply s.pins := rfl
@[simp] theorem State.emitAll_seq (evs : List Event) : (s.emitAll evs).seq = s.seq := rfl
@[simp] theorem State.emitAll_ghost (evs : List Event) : (s.emitAll evs).ghost = s.ghost := rfl
@[simp] theorem State.emitAll_misuse (evs : List Event) : (s.emitAll evs).misuse = s.misuse := rfl
@[simp] theorem State.emitAll_cpc (evs : List Event) : (s.emitAll evs).cpc = s.cpc := rfl
@[simp] theorem State.emitAll_trace (evs : List Event) : (s.emitAll evs).trace = s.trace ++ evs := rfl
@[simp] theorem State.emitAll_mem (evs : List Event) : (s.emitAll evs).mem = s.mem := rfl
@[simp] theorem State.emitAll_program (evs : List Event) : (s.emitAll evs).program = s.program := rfl
@[simp] theorem State.emitAll_interface (evs : List Event) : (s.emitAll evs).interface = s.interface := rfl
@[simp] theorem State.emitAll_port (evs : List Event) : (s.emitAll evs).port = s.port := rfl

@[simp] theorem State.emit_config (ev : Event) : (s.emit ev).config = s.config := rfl
@[simp] theorem State.emit_pins (ev : Event) : (s.emit ev).pins = s.pins.apply ev := rfl
@[simp] theorem State.emit_seq (ev : Event) : (s.emit ev).seq = s.seq := rfl
@[simp] theorem State.emit_ghost (ev : Event) : (s.emit ev).ghost = s.ghost := rfl
@[simp] theorem State.emit_misuse (ev : Event) : (s.emit ev).misuse = s.misuse := rfl
@[simp] theorem State.emit_cpc (ev : Event) : (s.emit ev).cpc = s.cpc := rfl
@[simp] theorem State.emit_trace (ev : Event) : (s.emit ev).trace = s.trace ++ [ev] := rfl
@[simp] theorem State.emit_mem (ev : Event) : (s.emit ev).mem = s.mem := rfl
@[simp] theorem State.emit_program (ev : Event) : (s.emit ev).program = s.program := rfl
@[simp] theorem State.emit_interface (ev : Event) : (s.emit ev).interface = s.interface := rfl
@[simp] theorem State.emit_port (ev : Event) : (s.emit ev).port = s.port := rfl

@[simp] theorem State.init_config (pp : PinPair) : (s.init pp).config = s.config := rfl
@[simp] theorem State.init_pins (pp : PinPair) : (s.init pp).pins = (initEvents pp).foldl PinFile.apply s.pins := rfl
@[simp] theorem State.init_seq (pp : PinPair) : (s.init pp).seq = s.seq := rfl
@[simp] theorem State.init_ghost (pp : PinPair) : (s.init pp).ghost = s.ghost := rfl
@[simp] theorem State.init_misuse (pp : PinPair) : (s.init pp).misuse = s.misuse := rfl
@[simp] theorem State.init_cpc (pp : PinPair) : (s.init pp).cpc = s.cpc := rfl
@[simp] theorem State.init_trace (pp : PinPair) : (s.init pp).trace = s.trace ++ initEvents pp := rfl
@[simp] theorem State.init_mem (pp : PinPair) : (s.init pp).mem = s.mem := rfl
@[simp] theorem State.init_program (pp : PinPair) : (s.init pp).program = s.program := rfl
@[simp] theorem State.init_interface (pp : PinPair) : (s.init pp).interface = s.interface := rfl
@[simp] theorem State.init_port (pp : PinPair) : (s.init pp).port = s.port := rfl

@[simp] theorem State.transferAll_config (pp : PinPair) (bytes : List Byte) : (s.transferAll pp bytes).config = s.config := rfl
@[simp] theorem State.transferAll_pins (pp : PinPair) (bytes : List Byte) : (s.transferAll pp bytes).pins = (bytes.flatMap (transferEvents pp)).foldl PinFile.apply s.pins := rfl
@[simp] theorem State.transferAll_seq (pp : PinPair) (bytes : List Byte) : (s.transferAll pp bytes).seq = s.seq := rfl
@[simp] theorem State.transferAll_ghost (pp : PinPair) (bytes : List Byte) : (s.transferAll pp bytes).ghost = s.ghost := rfl
@[simp] theorem State.transferAll_misuse (pp : PinPair) (bytes : List Byte) : (s.transferAll pp bytes).misuse = s.misuse := rfl
@[simp] theorem State.transferAll_cpc (pp : PinPair) (bytes : List Byte) : (s.transferAll pp bytes).cpc = s.cpc := rfl
@[simp] theorem State.transferAll_trace (pp : PinPair) (bytes : List Byte) : (s.transferAll pp bytes).trace = s.trace ++ bytes.flatMap (transferEvents pp) := rfl
@[simp] theorem State.transferAll_mem (pp : PinPair) (bytes : List Byte) : (s.transferAll pp bytes).mem = s.mem := rfl
@[simp] theorem State.transferAll_program (pp : PinPair) (bytes : List Byte) : (s.transferAll pp bytes).program = s.program := rfl
@[simp] theorem State.transferAll_interface (pp : PinPair) (bytes : List Byte) : (s.transferAll pp bytes).interface = s.interface := rfl
@[simp] theorem State.transferAll_port (pp : PinPair) (bytes : List Byte) : (s.transferAll pp bytes).port = s.port := rfl

@[simp] theorem State.flagMisuse_config (b : Bool) : (s.flagMisuse b).config = s.config := rfl
@[simp] theorem State.flagMisuse_pins (b : Bool) : (s.flagMisuse b).pins = s.pins := rfl
@[simp] theorem State.flagMisuse_seq (b : Bool) : (s.flagMisuse b).seq = s.seq := rfl
@[simp] theorem State.flagMisuse_ghost (b : Bool) : (s.flagMisuse b).ghost = s.ghost := rfl
@[simp] theorem State.flagMisuse_misuse (b : Bool) : (s.flagMisuse b).misuse = (s.misuse || b) := rfl
@[simp] theorem State.flagMisuse_cpc (b : Bool) : (s.flagMisuse b).cpc = s.cpc := rfl
@[simp] theorem State.flagMisuse_trace (b : Bool) : (s.flagMisuse b).trace = s.trace := rfl
@[simp] theorem State.flagMisuse_mem (b : Bool) : (s.flagMisuse b).mem = s.mem := rfl
@[simp] theorem State.flagMisuse_program (b : Bool) : (s.flagMisuse b).program = s.program := rfl
@[simp] theorem State.flagMisuse_interface (b : Bool) : (s.flagMisuse b).interface = s.interface := rfl
@[simp] theorem State.flagMisuse_port (b : Bool) : (s.flagMisuse b).port = s.port := rfl

@[simp] theorem State.setSeq_config (r : Option Running) : (s.setSeq r).config = s.config := rfl
@[simp] theorem State.setSeq_pins (r : Option Running) : (s.setSeq r).pins = s.pins := rfl
@[simp] theorem State.setSeq_seq (r : Option Running) : (s.setSeq r).seq = r := rfl
@[simp] theorem State.setSeq_ghost (r : Option Running) : (s.setSeq r).ghost = s.ghost := rfl
@[simp] theorem State.setSeq_misuse (r : Option Running) : (s.setSeq r).misuse = s.misuse := rfl
@[simp] theorem State.setSeq_cpc (r : Option Running) : (s.setSeq r).cpc = s.cpc := rfl
@[simp] theorem State.setSeq_trace (r : Option Running) : (s.setSeq r).trace = s.trace := rfl
@[simp] theorem State.setSeq_mem (r : Option Running) : (s.setSeq r).mem = s.mem := rfl
@[simp] theorem State.setSeq_program (r : Option Running) : (s.setSeq r).program = s.program := rfl
@[simp] theorem State.setSeq_interface (r : Option Running) : (s.setSeq r).interface = s.interface := rfl
@[simp] theorem State.setSeq_port (r : Option Running) : (s.setSeq r).port = s.port := rfl

@[simp] theorem State.setPort_config (k : Nat) : (s.setPort k).config = s.config := rfl
@[simp] theorem State.setPort_pins (k : Nat) : (s.setPort k).pins = s.pins := rfl
@[simp] theorem State.setPort_seq (k : Nat) : (s.setPort k).seq = s.seq := rfl
@[simp] theorem State.setPort_ghost (k : Nat) : (s.setPort k).ghost = s.ghost := rfl
@[simp] theorem State.setPort_misuse (k : Nat) : (s.setPort k).misuse = s.misuse := rfl
@[simp] theorem State.setPort_cpc (k : Nat) : (s.setPort k).cpc = s.cpc := rfl
@[simp] theorem State.setPort_trace (k : Nat) : (s.setPort k).trace = s.trace := rfl
@[simp] theorem State.setPort_mem (k : Nat) : (s.setPort k).mem = s.mem := rfl
@[simp] theorem State.setPort_program (k : Nat) : (s.setPort k).program = s.program := rfl
@[simp] theorem State.setPort_interface (k : Nat) : (s.setPort k).interface = s.interface := rfl
@[simp] theorem State.setPort_port (k : Nat) : (s.setPort k).port = k := rfl

@[simp] theorem State.complete_config (i : Instr) : (s.complete i).config = s.config := rfl
@[simp] theorem State.complete_pins (i : Instr) : (s.complete i).pins = s.pins := rfl
@[simp] theorem State.complete_seq (i : Instr) : (s.complete i).seq = none := rfl
@[simp] theorem State.complete_ghost (i : Instr) : (s.complete i).ghost = store Ghost.initial s.port (ghostAfter i (s.ghostOf s.port)) s.ghost := rfl
@[simp] theorem State.complete_misuse (i : Instr) : (s.complete i).misuse = s.misuse := rfl
@[simp] theorem State.complete_cpc (i : Instr) : (s.complete i).cpc = s.cpc + s.cmdLength i := rfl
@[simp] theorem State.complete_trace (i : Instr) : (s.complete i).trace = s.trace := rfl
@[simp] theorem State.complete_mem (i : Instr) : (s.complete i).mem = s.mem := rfl
@[simp] theorem State.complete_program (i : Instr) : (s.complete i).program = s.program := rfl
@[simp] theorem State.complete_interface (i : Instr) : (s.complete i).interface = s.interface := rfl
@[simp] theorem State.complete_port (i : Instr) : (s.complete i).port = s.port := rfl

/-- The end of a frame is the events of its bytes and the completion, and nothing after (70_reset_and_hazards.md R211). -/
theorem State.finishFrame_eq (pp : PinPair) (i : Instr) (count : Count) :
    s.finishFrame pp i count = (s.emitAll ((endFrameBytes count).flatMap (transferEvents pp))).complete i := rfl
@[simp] theorem State.finishFrame_config (pp : PinPair) (i : Instr) (count : Count) : (s.finishFrame pp i count).config = s.config := rfl
@[simp] theorem State.finishFrame_pins (pp : PinPair) (i : Instr) (count : Count) : (s.finishFrame pp i count).pins = ((endFrameBytes count).flatMap (transferEvents pp)).foldl PinFile.apply s.pins := by
  rw [State.finishFrame_eq, State.complete_pins, State.emitAll_pins]
@[simp] theorem State.finishFrame_seq (pp : PinPair) (i : Instr) (count : Count) : (s.finishFrame pp i count).seq = none := rfl
@[simp] theorem State.finishFrame_ghost (pp : PinPair) (i : Instr) (count : Count) : (s.finishFrame pp i count).ghost = store Ghost.initial s.port (ghostAfter i (s.ghostOf s.port)) s.ghost := rfl
@[simp] theorem State.finishFrame_misuse (pp : PinPair) (i : Instr) (count : Count) : (s.finishFrame pp i count).misuse = s.misuse := rfl
@[simp] theorem State.finishFrame_cpc (pp : PinPair) (i : Instr) (count : Count) : (s.finishFrame pp i count).cpc = s.cpc + s.cmdLength i := rfl
@[simp] theorem State.finishFrame_trace (pp : PinPair) (i : Instr) (count : Count) : (s.finishFrame pp i count).trace = s.trace ++ (endFrameBytes count).flatMap (transferEvents pp) := rfl
@[simp] theorem State.finishFrame_mem (pp : PinPair) (i : Instr) (count : Count) : (s.finishFrame pp i count).mem = s.mem := rfl
@[simp] theorem State.finishFrame_program (pp : PinPair) (i : Instr) (count : Count) : (s.finishFrame pp i count).program = s.program := rfl
@[simp] theorem State.finishFrame_interface (pp : PinPair) (i : Instr) (count : Count) : (s.finishFrame pp i count).interface = s.interface := rfl
@[simp] theorem State.finishFrame_port (pp : PinPair) (i : Instr) (count : Count) : (s.finishFrame pp i count).port = s.port := rfl

@[simp] theorem State.stuckWrite_config (base : Addr) (count : Count) (br : Brightness) (i : Nat) (got : List Byte) : (s.stuckWrite base count br i got).config = s.config := rfl
@[simp] theorem State.stuckWrite_pins (base : Addr) (count : Count) (br : Brightness) (i : Nat) (got : List Byte) : (s.stuckWrite base count br i got).pins = s.pins := rfl
@[simp] theorem State.stuckWrite_seq (base : Addr) (count : Count) (br : Brightness) (i : Nat) (got : List Byte) : (s.stuckWrite base count br i got).seq = some { inst := s.port, cmd := .write base count br, pos := .read, led := i, colour := got } := rfl
@[simp] theorem State.stuckWrite_ghost (base : Addr) (count : Count) (br : Brightness) (i : Nat) (got : List Byte) : (s.stuckWrite base count br i got).ghost = s.ghost := rfl
@[simp] theorem State.stuckWrite_misuse (base : Addr) (count : Count) (br : Brightness) (i : Nat) (got : List Byte) : (s.stuckWrite base count br i got).misuse = s.misuse := rfl
@[simp] theorem State.stuckWrite_cpc (base : Addr) (count : Count) (br : Brightness) (i : Nat) (got : List Byte) : (s.stuckWrite base count br i got).cpc = s.cpc := rfl
@[simp] theorem State.stuckWrite_trace (base : Addr) (count : Count) (br : Brightness) (i : Nat) (got : List Byte) : (s.stuckWrite base count br i got).trace = s.trace := rfl
@[simp] theorem State.stuckWrite_mem (base : Addr) (count : Count) (br : Brightness) (i : Nat) (got : List Byte) : (s.stuckWrite base count br i got).mem = s.mem := rfl
@[simp] theorem State.stuckWrite_program (base : Addr) (count : Count) (br : Brightness) (i : Nat) (got : List Byte) : (s.stuckWrite base count br i got).program = s.program := rfl
@[simp] theorem State.stuckWrite_interface (base : Addr) (count : Count) (br : Brightness) (i : Nat) (got : List Byte) : (s.stuckWrite base count br i got).interface = s.interface := rfl
@[simp] theorem State.stuckWrite_port (base : Addr) (count : Count) (br : Brightness) (i : Nat) (got : List Byte) : (s.stuckWrite base count br i got).port = s.port := rfl

@[simp] theorem State.hostStore_config (addr : Addr) (v : Byte) : (s.hostStore addr v).config = s.config := rfl
@[simp] theorem State.hostStore_pins (addr : Addr) (v : Byte) : (s.hostStore addr v).pins = s.pins := rfl
@[simp] theorem State.hostStore_seq (addr : Addr) (v : Byte) : (s.hostStore addr v).seq = s.seq := rfl
@[simp] theorem State.hostStore_ghost (addr : Addr) (v : Byte) : (s.hostStore addr v).ghost = s.ghost := rfl
@[simp] theorem State.hostStore_misuse (addr : Addr) (v : Byte) : (s.hostStore addr v).misuse = s.misuse := rfl
@[simp] theorem State.hostStore_cpc (addr : Addr) (v : Byte) : (s.hostStore addr v).cpc = s.cpc := rfl
@[simp] theorem State.hostStore_trace (addr : Addr) (v : Byte) : (s.hostStore addr v).trace = s.trace := rfl
@[simp] theorem State.hostStore_mem (addr : Addr) (v : Byte) : (s.hostStore addr v).mem = store 0#8 addr.toNat v s.mem := rfl
@[simp] theorem State.hostStore_program (addr : Addr) (v : Byte) : (s.hostStore addr v).program = s.program := rfl
@[simp] theorem State.hostStore_interface (addr : Addr) (v : Byte) : (s.hostStore addr v).interface = s.interface := rfl
@[simp] theorem State.hostStore_port (addr : Addr) (v : Byte) : (s.hostStore addr v).port = s.port := rfl

/-! What a state answers depends on these fields only. -/

theorem State.ghostOf_eq_load (k : Nat) : s.ghostOf k = load Ghost.initial k s.ghost := rfl
@[simp] theorem State.emitAll_ghostOf (evs : List Event) (k : Nat) : (s.emitAll evs).ghostOf k = s.ghostOf k := rfl
@[simp] theorem State.flagMisuse_ghostOf (b : Bool) (k : Nat) : (s.flagMisuse b).ghostOf k = s.ghostOf k := rfl
@[simp] theorem State.setSeq_ghostOf (r : Option Running) (k : Nat) : (s.setSeq r).ghostOf k = s.ghostOf k := rfl
@[simp] theorem State.setPort_ghostOf (j k : Nat) : (s.setPort j).ghostOf k = s.ghostOf k := rfl
@[simp] theorem State.emitAll_cmdLength (evs : List Event) (i : Instr) : (s.emitAll evs).cmdLength i = s.cmdLength i := rfl
@[simp] theorem State.flagMisuse_cmdLength (b : Bool) (i : Instr) : (s.flagMisuse b).cmdLength i = s.cmdLength i := rfl
@[simp] theorem State.setPort_cmdLength (k : Nat) (i : Instr) : (s.setPort k).cmdLength i = s.cmdLength i := rfl
@[simp] theorem State.emitAll_memRead (evs : List Event) (a : Nat) : (s.emitAll evs).memRead a = s.memRead a := rfl
@[simp] theorem State.flagMisuse_memRead (b : Bool) (a : Nat) : (s.flagMisuse b).memRead a = s.memRead a := rfl
@[simp] theorem State.setSeq_memRead (r : Option Running) (a : Nat) : (s.setSeq r).memRead a = s.memRead a := rfl
@[simp] theorem State.setPort_memRead (k a : Nat) : (s.setPort k).memRead a = s.memRead a := rfl

/-! The updates compose. -/

theorem State.emitAll_emitAll (a b : List Event) : (s.emitAll a).emitAll b = s.emitAll (a ++ b) := by
  simp [State.emitAll, List.append_assoc, List.foldl_append]

theorem State.emitAll_nil : s.emitAll [] = s := by simp [State.emitAll]

theorem State.emit_eq_emitAll (ev : Event) : s.emit ev = s.emitAll [ev] := rfl

theorem State.init_eq_emitAll (pp : PinPair) : s.init pp = s.emitAll (initEvents pp) := rfl

theorem State.transferAll_eq_emitAll (pp : PinPair) (bytes : List Byte) :
    s.transferAll pp bytes = s.emitAll (bytes.flatMap (transferEvents pp)) := rfl

theorem State.transferAll_append (pp : PinPair) (a b : List Byte) :
    (s.transferAll pp a).transferAll pp b = s.transferAll pp (a ++ b) := by
  simp [State.transferAll, State.emitAll_emitAll, List.flatMap_append]

theorem State.setSeq_setSeq (a b : Option Running) : (s.setSeq a).setSeq b = s.setSeq b := rfl

theorem State.setSeq_complete (r : Option Running) (i : Instr) : (s.setSeq r).complete i = s.complete i := rfl

theorem State.setSeq_emitAll (r : Option Running) (evs : List Event) :
    (s.setSeq r).emitAll evs = (s.emitAll evs).setSeq r := rfl

theorem State.complete_stuckAt (i : Instr) : (s.complete i).stuckAt = none := rfl

theorem State.stuckAt_of_idle (h : s.seq = none) : s.stuckAt = none := by simp [State.stuckAt, h]

end

end Sys2Proof.Machine
end

