-- ==== Sys2Proof/Laws/Store.lean ====
section
/-! SUPPORT. The laws of the sparse tables: read after write, and that every operation keeps the canonical form. -/

namespace Sys2Proof.Machine

variable {β : Type}

@[simp] theorem find?_nil (k : Nat) : find? k ([] : List (Nat × β)) = none := rfl

theorem find?_cons (k a : Nat) (v : β) (l : List (Nat × β)) :
    find? k ((a, v) :: l) = if a = k then some v else find? k l := rfl

@[simp] theorem find?_put_same (k : Nat) (v : β) (l : List (Nat × β)) : find? k (put k v l) = some v := by
  induction l with
  | nil => simp [put, find?]
  | cons e l ih =>
    simp only [put]
    split
    · simp [find?]
    · split
      · simp [find?]
      · have : e.1 ≠ k := by omega
        simp [find?, this, ih]

theorem find?_put_other {j k : Nat} (h : j ≠ k) (v : β) (l : List (Nat × β)) : find? j (put k v l) = find? j l := by
  induction l with
  | nil => simp [put, find?, Ne.symm h]
  | cons e l ih =>
    simp only [put]
    split
    · simp [find?, Ne.symm h]
    · split
      · next hk => simp [find?, Ne.symm h, ← hk]
      · simp [find?, ih]

theorem find?_put (j k : Nat) (v : β) (l : List (Nat × β)) :
    find? j (put k v l) = if j = k then some v else find? j l := by
  by_cases h : j = k
  · subst h; simp
  · simp [h, find?_put_other h]

theorem find?_del (j k : Nat) (l : List (Nat × β)) : find? j (del k l) = if j = k then none else find? j l := by
  induction l with
  | nil => simp [del]
  | cons e l ih =>
    have hd : del k (e :: l) = if e.1 = k then del k l else e :: del k l := by
      by_cases h : e.1 = k <;> simp [del, h]
    rw [hd]
    by_cases h : e.1 = k
    · rw [if_pos h, ih]; by_cases hj : j = k
      · simp [hj]
      · have : e.1 ≠ j := fun e' => hj (e' ▸ h)
        simp [hj, find?, this]
    · rw [if_neg h]; simp only [find?, ih]
      by_cases hj : e.1 = j
      · have : j ≠ k := fun e' => h (hj.trans e')
        simp [hj, this]
      · simp [hj]

/-- Read after write, and every other key stays. -/
theorem load_store [DecidableEq β] (d : β) (j k : Nat) (v : β) (l : List (Nat × β)) :
    load d j (store d k v l) = if j = k then v else load d j l := by
  unfold load store
  by_cases hv : v = d
  · rw [if_pos hv, find?_del]; by_cases h : j = k <;> simp [h, hv]
  · rw [if_neg hv, find?_put]; by_cases h : j = k <;> simp [h]

theorem load_put (d : β) (j k : Nat) (v : β) (l : List (Nat × β)) :
    load d j (put k v l) = if j = k then v else load d j l := by
  unfold load; rw [find?_put]; by_cases h : j = k <;> simp [h]

/-- A second write of a key hides the first. -/
theorem put_put (k : Nat) (v w : β) (l : List (Nat × β)) : put k v (put k w l) = put k v l := by
  induction l with
  | nil => simp [put]
  | cons a l ih =>
    simp only [put]
    split
    · simp [put]
    · split
      · simp [put]
      · next h1 h2 => simp only [put]; rw [if_neg h1, if_neg h2, ih]

/-- Writes of different keys commute, as data. -/
theorem put_comm {j k : Nat} (h : j ≠ k) (v w : β) (l : List (Nat × β)) :
    put j v (put k w l) = put k w (put j v l) := by
  induction l with
  | nil =>
    rcases Nat.lt_or_gt_of_ne h with hl | hl
    · simp [put, hl, Nat.not_lt.mpr hl.le, h.symm]
    · simp [put, hl, Nat.not_lt.mpr hl.le, h]
  | cons a l ih =>
    obtain ⟨x, y⟩ := a
    have lt : ∀ (k x : Nat) (v y : β) (l), k < x → put k v ((x, y) :: l) = (k, v) :: (x, y) :: l := fun k x v y l h => by simp [put, h]
    have gt : ∀ (k x : Nat) (v y : β) (l), x < k → put k v ((x, y) :: l) = (x, y) :: put k v l := fun k x v y l h => by
      simp only [put]; rw [if_neg (by omega), if_neg (by omega)]
    have eq : ∀ (k : Nat) (v y : β) (l), put k v ((k, y) :: l) = (k, v) :: l := fun k v y l => by simp [put]
    rcases Nat.lt_trichotomy k x with hk | hk | hk <;> rcases Nat.lt_trichotomy j x with hj | hj | hj
    · rw [lt k x _ _ _ hk, lt j x _ _ _ hj]
      rcases Nat.lt_or_gt_of_ne h with hl | hl
      · rw [lt _ _ _ _ _ hl, gt _ _ _ _ _ hl, lt _ _ _ _ _ hk]
      · rw [gt _ _ _ _ _ hl, lt _ _ _ _ _ hj, lt _ _ _ _ _ hl]
    · subst hj; rw [lt _ _ _ _ _ hk, eq, gt _ _ _ _ _ hk, eq, lt _ _ _ _ _ hk]
    · rw [lt _ _ _ _ _ hk, gt _ _ _ _ _ (by omega), gt _ _ _ _ _ hj, lt _ _ _ _ _ hk]
    all_goals first
      | exact absurd (hj.trans hk.symm) h
      | (subst hk; rw [eq, lt _ _ _ _ _ hj, lt _ _ _ _ _ hj, gt _ _ _ _ _ hj, eq]; done)
      | (subst hk; rw [eq, gt _ _ _ _ _ hj, gt _ _ _ _ _ hj, eq]; done)
      | (rw [gt _ _ _ _ _ hk, lt _ _ _ _ _ hj, lt _ _ _ _ _ hj, gt _ _ _ _ _ (by omega), gt _ _ _ _ _ hk]; done)
      | (subst hj; rw [gt _ _ _ _ _ hk, eq, eq, gt _ _ _ _ _ hk]; done)
      | (rw [gt _ _ _ _ _ hk, gt _ _ _ _ _ hj, gt _ _ _ _ _ hj, gt _ _ _ _ _ hk, ih]; done)
theorem mem_put {e : Nat × β} {k : Nat} {v : β} {l : List (Nat × β)} (h : e ∈ put k v l) : e = (k, v) ∨ e ∈ l := by
  induction l with
  | nil => simpa [put] using h
  | cons a l ih =>
    simp only [put] at h
    split at h
    · simpa using h
    · split at h
      · simp only [List.mem_cons] at h ⊢; tauto
      · simp only [List.mem_cons] at h ⊢
        rcases h with h | h
        · tauto
        · have := ih h; tauto

theorem mem_del {e : Nat × β} {k : Nat} {l : List (Nat × β)} (h : e ∈ del k l) : e ∈ l := (List.mem_filter.mp h).1

theorem mem_store [DecidableEq β] {d : β} {e : Nat × β} {k : Nat} {v : β} {l : List (Nat × β)}
    (h : e ∈ store d k v l) : e = (k, v) ∨ e ∈ l := by
  unfold store at h
  split at h
  · exact .inr (mem_del h)
  · exact mem_put h

theorem put_sorted {k : Nat} {v : β} {l : List (Nat × β)} (h : Sorted l) : Sorted (put k v l) := by
  induction l with
  | nil => simp [put, Sorted]
  | cons a l ih =>
    rw [Sorted, List.pairwise_cons] at h
    simp only [put]
    split
    · next hk =>
      rw [Sorted, List.pairwise_cons]
      refine ⟨fun b hb => ?_, List.pairwise_cons.mpr h⟩
      rcases List.mem_cons.mp hb with rfl | hb
      · exact hk
      · exact Nat.lt_trans hk (h.1 b hb)
    · split
      · next hk => exact List.pairwise_cons.mpr ⟨fun b hb => by have := h.1 b hb; simp only; omega, h.2⟩
      · next h1 h2 =>
        refine List.pairwise_cons.mpr ⟨fun b hb => ?_, ih h.2⟩
        rcases mem_put hb with rfl | hb
        · simp only; omega
        · exact h.1 b hb

theorem del_sorted {k : Nat} {l : List (Nat × β)} (h : Sorted l) : Sorted (del k l) := h.filter _

/-- Writing a value other than the default keeps the canonical form. -/
theorem put_canonical {d : β} {k : Nat} {v : β} {l : List (Nat × β)} (hv : v ≠ d) (h : Canonical d l) :
    Canonical d (put k v l) :=
  ⟨put_sorted h.1, fun e he => (mem_put he).elim (fun e' => by rw [e']; exact hv) (h.2 e)⟩

/-- Every write keeps the canonical form. -/
theorem store_canonical [DecidableEq β] {d : β} {k : Nat} {v : β} {l : List (Nat × β)} (h : Canonical d l) :
    Canonical d (store d k v l) := by
  unfold store
  split
  · exact ⟨del_sorted h.1, fun e he => h.2 e (mem_del he)⟩
  · next hv => exact put_canonical hv h

/-- The host's store keeps the canonical form of memory. -/
theorem hostStore_wf {s : State} (addr : Addr) (v : Byte) (h : Memory.wf s.mem) : Memory.wf (s.hostStore addr v).mem :=
  ⟨store_canonical h.1, fun e he => by
    rcases mem_store he with rfl | he
    · exact addr.isLt
    · exact h.2 e he⟩

theorem reset_mem_wf : Memory.wf State.reset.mem := by simp [State.reset, State.start, Memory.wf, Canonical, Sorted]

theorem find?_of_mem {k : Nat} {v : β} {l : List (Nat × β)} (hs : Sorted l) (h : (k, v) ∈ l) : find? k l = some v := by
  induction l with
  | nil => simp at h
  | cons a l ih =>
    rw [Sorted, List.pairwise_cons] at hs
    rcases List.mem_cons.mp h with rfl | h
    · simp [find?]
    · have : a.1 ≠ k := by have := hs.1 _ h; simp only at this; omega
      simp [find?, this, ih hs.2 h]

theorem mem_of_find? {k : Nat} {v : β} {l : List (Nat × β)} (h : find? k l = some v) : (k, v) ∈ l := by
  induction l with
  | nil => simp at h
  | cons a l ih =>
    simp only [find?] at h
    split at h
    · next hk => cases h; simp [← hk]
    · exact List.mem_cons_of_mem _ (ih h)

end Sys2Proof.Machine
end

