-- ==== Sys2Proof/Laws/Pins.lean ====
section
/-! SUPPORT. What the GPIO events, INIT and TRANSFER do to the pin state (40_bit_transfer.md R110, R112, R114). -/

namespace Sys2Proof.Machine

/-! One event. -/

theorem oeBit_apply (f : PinFile) (ev : Event) (p : Pin) :
    (f.apply ev).oeBit p = (decide (ev = .cfg p) || f.oeBit p) := by
  cases ev with
  | cfg a =>
    simp only [PinFile.apply, PinFile.oeBit, load_put, Event.cfg.injEq]
    by_cases h : p = a
    · simp [h]
    · simp [h, Ne.symm h]
  | set a l => simp [PinFile.apply, PinFile.oeBit]

theorem find?_apply (f : PinFile) (ev : Event) (p : Pin) :
    find? p (f.apply ev).q = match ev with
      | .cfg _ => find? p f.q
      | .set a l => if p = a then some l else find? p f.q := by
  cases ev <;> simp [PinFile.apply, find?_put]

theorem latch_apply_cfg (f : PinFile) (a p : Pin) : (f.apply (.cfg a)).latch p = f.latch p := rfl

theorem latch_apply_set (f : PinFile) (a p : Pin) (l : Level) :
    (f.apply (.set a l)).latch p = if p = a then l else f.latch p := by
  simp only [PinFile.apply, PinFile.latch, load_put]

theorem latch_eq (f : PinFile) (p : Pin) : f.latch p = (find? p f.q).getD (Config.resetLatch p) := rfl

/-! Lists of events. -/

/-- An event that concerns a pin. -/
def Event.pin : Event → Pin
  | .cfg p => p
  | .set p _ => p

theorem apply_other {f : PinFile} {ev : Event} {p : Pin} (h : ev.pin ≠ p) :
    (f.apply ev).oeBit p = f.oeBit p ∧ find? p (f.apply ev).q = find? p f.q := by
  constructor
  · rw [oeBit_apply]; cases ev <;> simp_all [Event.pin]
  · rw [find?_apply]; cases ev <;> simp_all [Event.pin, eq_comm]

/-- Events of other pins leave a pin alone. -/
theorem foldl_other {evs : List Event} {p : Pin} (h : ∀ ev ∈ evs, ev.pin ≠ p) (f : PinFile) :
    (evs.foldl PinFile.apply f).oeBit p = f.oeBit p ∧ find? p (evs.foldl PinFile.apply f).q = find? p f.q := by
  induction evs generalizing f with
  | nil => exact ⟨rfl, rfl⟩
  | cons ev evs ih =>
    have h1 := ih (fun e he => h e (List.mem_cons_of_mem _ he)) (f.apply ev)
    have h2 := apply_other (f := f) (h ev List.mem_cons_self)
    exact ⟨h1.1.trans h2.1, h1.2.trans h2.2⟩

theorem foldl_oeBit (evs : List Event) (f : PinFile) (p : Pin) :
    (evs.foldl PinFile.apply f).oeBit p = (decide (.cfg p ∈ evs) || f.oeBit p) := by
  induction evs generalizing f with
  | nil => simp
  | cons ev evs ih =>
    rw [List.foldl_cons, ih, oeBit_apply]
    by_cases h1 : Event.cfg p ∈ evs <;> by_cases h2 : ev = .cfg p <;> simp [h1, h2, eq_comm]

/-! INIT. -/

theorem mem_initEvents {pp : PinPair} {ev : Event} (h : ev ∈ initEvents pp) : ev.pin = pp.clk ∨ ev.pin = pp.data := by
  simp only [initEvents, List.mem_cons, List.not_mem_nil, or_false] at h
  rcases h with rfl | rfl | rfl | rfl <;> simp [Event.pin]

theorem init_oe (pp : PinPair) (f : PinFile) (p : Pin) :
    ((initEvents pp).foldl PinFile.apply f).oeBit p = (decide (p = pp.clk ∨ p = pp.data) || f.oeBit p) := by
  rw [foldl_oeBit]; congr 1; simp [initEvents, or_comm]

theorem init_find? (pp : PinPair) (f : PinFile) (p : Pin) :
    find? p ((initEvents pp).foldl PinFile.apply f).q =
      if p = pp.clk ∨ p = pp.data then some false else find? p f.q := by
  simp only [initEvents, List.foldl_cons, List.foldl_nil, find?_apply]
  by_cases h1 : p = pp.clk <;> by_cases h2 : p = pp.data <;> simp [h1, h2]

/-! TRANSFER. -/

theorem mem_transferEvents {pp : PinPair} {v : Byte} {ev : Event} (h : ev ∈ transferEvents pp v) :
    ∃ l, ev = .set pp.clk l ∨ ev = .set pp.data l := by
  simp only [transferEvents, bitEvents, List.mem_flatMap, List.mem_cons, List.not_mem_nil, or_false] at h
  obtain ⟨l, -, rfl | rfl | rfl⟩ := h
  · exact ⟨l, .inr rfl⟩
  · exact ⟨true, .inl rfl⟩
  · exact ⟨false, .inl rfl⟩

theorem mem_transfers {pp : PinPair} {bytes : List Byte} {ev : Event} (h : ev ∈ bytes.flatMap (transferEvents pp)) :
    ∃ l, ev = .set pp.clk l ∨ ev = .set pp.data l := by
  obtain ⟨v, -, hv⟩ := List.mem_flatMap.mp h
  exact mem_transferEvents hv

theorem transfers_oe (pp : PinPair) (bytes : List Byte) (f : PinFile) (p : Pin) :
    ((bytes.flatMap (transferEvents pp)).foldl PinFile.apply f).oeBit p = f.oeBit p := by
  rw [foldl_oeBit]
  have : Event.cfg p ∉ bytes.flatMap (transferEvents pp) := fun h => by
    obtain ⟨l, h | h⟩ := mem_transfers h <;> cases h
  simp [this]

theorem transfer_find? (pp : PinPair) (h : pp.clk ≠ pp.data) (v : Byte) (f : PinFile) (p : Pin) :
    find? p ((transferEvents pp v).foldl PinFile.apply f).q =
      if p = pp.clk then some false else if p = pp.data then some (v.getLsbD 0) else find? p f.q := by
  simp only [transferEvents, byteBits, bitOrder, bitEvents, List.map_cons, List.map_nil, List.flatMap_cons,
    List.flatMap_nil, List.append_nil, List.cons_append, List.nil_append, List.foldl_cons, List.foldl_nil, find?_apply]
  by_cases h1 : p = pp.clk
  · simp [h1]
  · by_cases h2 : p = pp.data
    · simp [h2, Ne.symm h]
    · simp [h1, h2]

/-- After a list of TRANSFERs: the clock latch is 0 and the data latch is the last bit sent (40_bit_transfer.md R114). -/
theorem transfers_find? (pp : PinPair) (h : pp.clk ≠ pp.data) (bytes : List Byte) (last : Byte) (f : PinFile) (p : Pin) :
    find? p (((bytes ++ [last]).flatMap (transferEvents pp)).foldl PinFile.apply f).q =
      if p = pp.clk then some false else if p = pp.data then some (last.getLsbD 0) else find? p f.q := by
  rw [List.flatMap_append, List.foldl_append, List.flatMap_cons, List.flatMap_nil, List.append_nil, transfer_find? pp h]
  by_cases h1 : p = pp.clk
  · simp [h1]
  · by_cases h2 : p = pp.data
    · simp [h2]
    · simp only [if_neg h1, if_neg h2]
      refine (foldl_other (fun ev he => ?_) f).2
      obtain ⟨l, rfl | rfl⟩ := mem_transfers he
      · simpa [Event.pin, eq_comm] using h1
      · simpa [Event.pin, eq_comm] using h2

/-- TRANSFER as an update of the pin state, as data. -/
theorem transfer_eq (pp : PinPair) (h : pp.clk ≠ pp.data) (v : Byte) (f : PinFile) :
    (transferEvents pp v).foldl PinFile.apply f =
      { f with q := put pp.clk false (put pp.data (v.getLsbD 0) f.q) } := by
  have e : ∀ (b : Level) (q : List (Nat × Level)),
      put pp.data b (put pp.clk false q) = put pp.clk false (put pp.data b q) := fun b q => put_comm h.symm _ _ _
  simp only [transferEvents, byteBits, bitOrder, bitEvents, List.map_cons, List.map_nil, List.flatMap_cons,
    List.flatMap_nil, List.append_nil, List.cons_append, List.nil_append, List.foldl_cons, List.foldl_nil, PinFile.apply,
    put_put, e]

/-- A list of TRANSFERs leaves the pin state of its last byte, as data. -/
theorem transfers_eq (pp : PinPair) (h : pp.clk ≠ pp.data) (bytes : List Byte) (last : Byte) (f : PinFile) :
    ((bytes ++ [last]).flatMap (transferEvents pp)).foldl PinFile.apply f =
      { f with q := put pp.clk false (put pp.data (last.getLsbD 0) f.q) } := by
  induction bytes generalizing f with
  | nil => simpa using transfer_eq pp h last f
  | cons b bytes ih =>
    rw [List.cons_append, List.flatMap_cons, List.foldl_append, transfer_eq pp h, ih]
    simp only [put_comm h.symm, put_put]

theorem length_byteBits (v : Byte) : (byteBits v).length = 8 := rfl

theorem length_transferEvents (pp : PinPair) (v : Byte) : (transferEvents pp v).length = 24 := rfl

theorem length_transfers (pp : PinPair) (bytes : List Byte) :
    (bytes.flatMap (transferEvents pp)).length = 24 * bytes.length := by
  induction bytes with
  | nil => rfl
  | cons v bytes ih => simp only [List.flatMap_cons, List.length_append, length_transferEvents, ih, List.length_cons]; omega

/-! The tables stay in canonical form. -/

theorem apply_canonical {f : PinFile} (h : Canonical false f.oe ∧ Sorted f.q) (ev : Event) :
    Canonical false (f.apply ev).oe ∧ Sorted (f.apply ev).q := by
  cases ev with
  | cfg p => exact ⟨put_canonical (by simp) h.1, h.2⟩
  | set p l => exact ⟨h.1, put_sorted h.2⟩

theorem foldl_canonical {f : PinFile} (h : Canonical false f.oe ∧ Sorted f.q) (evs : List Event) :
    Canonical false (evs.foldl PinFile.apply f).oe ∧ Sorted (evs.foldl PinFile.apply f).q := by
  induction evs generalizing f with
  | nil => exact h
  | cons ev evs ih => exact ih (apply_canonical h ev)

/-! The pin map. -/

/-- A well-formed pin map, spelled out (10_state.md R35, 00_scope.md R8). -/
theorem pinMapOk_iff (c : HwConfig) :
    pinMapOk c = true ↔ c.bindings ≠ [] ∧ ∀ (k : Nat) (pk : PinPair), c.bindings[k]? = some pk →
      pk.clk ≠ pk.data ∧ ∀ (j : Nat) (pj : PinPair), c.bindings[j]? = some pj → j ≠ k → pk.data ≠ pj.clk ∧ pk.data ≠ pj.data := by
  simp only [pinMapOk, Bool.and_eq_true, Bool.not_eq_true', List.isEmpty_eq_false_iff, List.all_eq_true, List.mem_range]
  refine and_congr_right fun _ => ?_
  constructor
  · intro h k pk hk
    have hlt := (List.getElem?_eq_some_iff.mp hk).1
    have h1 := h k hlt
    rw [hk] at h1
    simp only [Bool.and_eq_true, decide_eq_true_eq, List.all_eq_true, List.mem_range] at h1
    refine ⟨h1.1, fun j pj hj hne => ?_⟩
    have h2 := h1.2 j (List.getElem?_eq_some_iff.mp hj).1
    rw [hj] at h2
    simpa [hne] using h2
  · intro h k hk
    have hk' : c.bindings[k]? = some c.bindings[k] := List.getElem?_eq_getElem hk
    rw [hk']
    simp only [Bool.and_eq_true, decide_eq_true_eq, List.all_eq_true, List.mem_range]
    refine ⟨(h k _ hk').1, fun j hj => ?_⟩
    have hj' : c.bindings[j]? = some c.bindings[j] := List.getElem?_eq_getElem hj
    rw [hj']
    by_cases e : j = k
    · simp [e]
    · have := (h k _ hk').2 j _ hj' e
      simp [e, this.1, this.2]

end Sys2Proof.Machine
end

