-- ==== Sys2Proof/Laws/Commands.lean ====
section
/-! SUPPORT. What a command can do, said once: the acceptance checks, the colour loop of WRITE, and exec as a whole. -/

namespace Sys2Proof.Machine

/-! Acceptance. -/

/-- A command that is issued to a state that accepts it runs. -/
theorem issue_accepts {s : State} {pp : PinPair} {i : Instr} {run : PinPair → Host.Outcome State Fault Refusal}
    (h : Accepts s pp) (hc : s.interface = .concrete ∨ inCapability i = true) : s.issue i run = run pp := by
  have hi : ¬ (s.interface = .capability ∧ inCapability i = false) := by
    rintro ⟨h1, h2⟩; rcases hc with hc | hc
    · rw [h1] at hc; cases hc
    · rw [h2] at hc; cases hc
  simp [State.issue, h.pinMap, State.stuckAt_of_idle s h.idle, h.bound, hi, h.idle]

/-- What `issue` can answer. -/
theorem issue_cases (s : State) (i : Instr) (run : PinPair → Host.Outcome State Fault Refusal) :
    (pinMapOk s.config = false ∧ s.issue i run = .refused .badPinMap) ∨
    (pinMapOk s.config = true ∧ ∃ a, s.stuckAt = some a ∧ s.issue i run = .fault (.memNotAdmitted a s)) ∨
    (pinMapOk s.config = true ∧ s.stuckAt = none ∧ s.config.bindings[s.port]? = none ∧
      s.issue i run = .refused .noSuchInstance) ∨
    (pinMapOk s.config = true ∧ s.stuckAt = none ∧ (∃ pp, s.config.bindings[s.port]? = some pp) ∧
      s.interface = .capability ∧ inCapability i = false ∧ s.issue i run = .refused .notInCapability) ∨
    (pinMapOk s.config = true ∧ s.stuckAt = none ∧ (∃ pp, s.config.bindings[s.port]? = some pp) ∧
      (s.interface = .concrete ∨ inCapability i = true) ∧ s.seq.isSome ∧ s.issue i run = .refused .concurrentHost) ∨
    (∃ pp, Accepts s pp ∧ (s.interface = .concrete ∨ inCapability i = true) ∧ s.issue i run = run pp) := by
  by_cases h1 : pinMapOk s.config = false
  · exact .inl ⟨h1, by simp [State.issue, h1]⟩
  have h1' : pinMapOk s.config = true := by simpa using h1
  refine .inr ?_
  cases h2 : s.stuckAt with
  | some a => exact .inl ⟨h1', a, rfl, by simp [State.issue, h1', h2]⟩
  | none =>
    refine .inr ?_
    cases h3 : s.config.bindings[s.port]? with
    | none => exact .inl ⟨h1', rfl, rfl, by simp [State.issue, h1', h2, h3]⟩
    | some pp =>
      refine .inr ?_
      by_cases h4 : s.interface = .capability ∧ inCapability i = false
      · exact .inl ⟨h1', rfl, ⟨pp, rfl⟩, h4.1, h4.2, by simp [State.issue, h1', h2, h3, h4]⟩
      have h4' : s.interface = .concrete ∨ inCapability i = true := by
        cases hi : s.interface <;> cases hc : inCapability i <;> simp_all
      refine .inr ?_
      by_cases h5 : s.seq.isSome
      · exact .inl ⟨h1', rfl, ⟨pp, rfl⟩, h4', h5, by simp only [State.issue, h1', h2, h3, if_neg h4]; simp [h5]⟩
      · have h5' : s.seq = none := by simpa using h5
        exact .inr ⟨pp, ⟨h1', h3, h5'⟩, h4', issue_accepts ⟨h1', h3, h5'⟩ h4'⟩

/-! The colour loop of WRITE. -/

theorem readColour_ok {s : State} {base : Addr} {i : Nat}
    (h : ∀ j, j < 3 → admits s.config (colourAddr base i j) = true) :
    s.readColour base i = .ok
      { r := hostByte s.mem (colourAddr base i 0)
        g := hostByte s.mem (colourAddr base i 1)
        b := hostByte s.mem (colourAddr base i 2) } := by
  simp [State.readColour, State.memRead, h 0 (by omega), h 1 (by omega), h 2 (by omega)]

/-- The read that is not admitted, if there is one. -/
theorem readColour_cases (s : State) (base : Addr) (i : Nat) :
    (s.readColour base i = .ok
      { r := hostByte s.mem (colourAddr base i 0)
        g := hostByte s.mem (colourAddr base i 1)
        b := hostByte s.mem (colourAddr base i 2) } ∧ ∀ j, j < 3 → admits s.config (colourAddr base i j) = true) ∨
    ∃ j, j < 3 ∧ admits s.config (colourAddr base i j) = false ∧
      (∀ j', j' < j → admits s.config (colourAddr base i j') = true) ∧
      s.readColour base i = .error ((List.range j).map fun j' => hostByte s.mem (colourAddr base i j')) := by
  cases h0 : admits s.config (colourAddr base i 0) with
  | false =>
    exact .inr ⟨0, by omega, h0, fun j h => by omega, by simp [State.readColour, State.memRead, h0]⟩
  | true =>
    cases h1 : admits s.config (colourAddr base i 1) with
    | false =>
      refine .inr ⟨1, by omega, h1, fun j h => ?_, by simp [State.readColour, State.memRead, h0, h1]⟩
      obtain rfl : j = 0 := by omega
      exact h0
    | true =>
      cases h2 : admits s.config (colourAddr base i 2) with
      | false =>
        refine .inr ⟨2, by omega, h2, fun j h => ?_, by
          simp [State.readColour, State.memRead, h0, h1, h2, List.range_succ]⟩
        obtain rfl | rfl : j = 0 ∨ j = 1 := by omega
        · exact h0
        · exact h1
      | true =>
        have : ∀ j, j < 3 → admits s.config (colourAddr base i j) = true := fun j h => by
          obtain rfl | rfl | rfl : j = 0 ∨ j = 1 ∨ j = 2 := by omega
          · exact h0
          · exact h1
          · exact h2
        exact .inl ⟨readColour_ok this, this⟩

/-- The colours from number `i` on, `n` of them, as host memory stands. -/
def coloursFrom (s : State) (base : Addr) (n i : Nat) : List Colour :=
  (List.range n).map fun j =>
    { r := hostByte s.mem (colourAddr base (i + j) 0)
      g := hostByte s.mem (colourAddr base (i + j) 1)
      b := hostByte s.mem (colourAddr base (i + j) 2) }

theorem coloursFrom_succ (s : State) (base : Addr) (n i : Nat) :
    coloursFrom s base (n + 1) i =
      { r := hostByte s.mem (colourAddr base i 0)
        g := hostByte s.mem (colourAddr base i 1)
        b := hostByte s.mem (colourAddr base i 2) } :: coloursFrom s base n (i + 1) := by
  simp only [coloursFrom, List.range_succ_eq_map, List.map_cons, List.map_map, Nat.add_zero, List.cons.injEq, true_and]
  exact List.map_congr_left fun j _ => by simp [Nat.add_comm, Nat.add_left_comm]

theorem coloursFrom_zero (s : State) (base : Addr) (count : Count) :
    coloursFrom s base count.toNat 0 = arrayColours s base count := by simp [coloursFrom, arrayColours]

theorem coloursFrom_emitAll (s : State) (evs : List Event) (base : Addr) (n i : Nat) :
    coloursFrom (s.emitAll evs) base n i = coloursFrom s base n i := rfl

/-- The LED words of a list of colours. -/
def ledBytes (br : Brightness) (cs : List Colour) : List Byte := cs.flatMap fun c => ledWord c.r c.g c.b br

theorem ledBytes_cons (br : Brightness) (c : Colour) (cs : List Colour) :
    ledBytes br (c :: cs) = ledWord c.r c.g c.b br ++ ledBytes br cs := List.flatMap_cons

theorem coloursFrom_transferAll (s : State) (pp : PinPair) (bytes : List Byte) (base : Addr) (n i : Nat) :
    coloursFrom (s.transferAll pp bytes) base n i = coloursFrom s base n i := by
  simp only [coloursFrom, State.transferAll_mem]

/-- The loop completes when every read is admitted: it sends each LED word. -/
theorem sendLeds_ok (pp : PinPair) (base : Addr) (count : Count) (br : Brightness) (n i : Nat) (s : State)
    (h : ∀ m j, m < n → j < 3 → admits s.config (colourAddr base (i + m) j) = true) :
    State.sendLeds pp base count br n i s = .ok (s.transferAll pp (ledBytes br (coloursFrom s base n i))) := by
  induction n generalizing i s with
  | zero => simp [State.sendLeds, coloursFrom, ledBytes, State.transferAll, State.emitAll_nil]
  | succ n ih =>
    have hc := readColour_ok (s := s) (base := base) (i := i) fun j hj => h 0 j (Nat.zero_lt_succ n) hj
    rw [State.sendLeds, hc]
    simp only
    refine (ih (i + 1) _ fun m j hm hj => ?_).trans ?_
    · have e : i + 1 + m = i + (m + 1) := by omega
      rw [e, State.transferAll_config]; exact h (m + 1) j (Nat.succ_lt_succ hm) hj
    · rw [State.transferAll_append, coloursFrom_transferAll, coloursFrom_succ, ledBytes_cons]

/-- The loop stops at the first read that is not admitted: the LED words before it are sent. -/
theorem sendLeds_stuck (pp : PinPair) (base : Addr) (count : Count) (br : Brightness) (n i : Nat) (s : State) (m j : Nat)
    (hm : m < n) (hj : j < 3) (hbad : admits s.config (colourAddr base (i + m) j) = false)
    (hok : ∀ m' j', (m' < m ∧ j' < 3) ∨ (m' = m ∧ j' < j) → admits s.config (colourAddr base (i + m') j') = true) :
    State.sendLeds pp base count br n i s = .error (colourAddr base (i + m) j,
      (s.transferAll pp (ledBytes br (coloursFrom s base m i))).stuckWrite base count br (i + m)
        ((List.range j).map fun j' => hostByte s.mem (colourAddr base (i + m) j'))) := by
  induction m generalizing n i s with
  | zero =>
    obtain ⟨n, rfl⟩ : ∃ n', n = n' + 1 := ⟨n - 1, by omega⟩
    rw [State.sendLeds]
    rcases readColour_cases s base i with ⟨-, hc⟩ | ⟨j2, hj2, hb2, hok2, he⟩
    · rw [Nat.add_zero, hc j hj] at hbad; cases hbad
    · obtain rfl : j2 = j := by
        rcases Nat.lt_trichotomy j2 j with hlt | heq | hlt
        · have := hok 0 j2 (.inr ⟨rfl, hlt⟩); rw [Nat.add_zero, hb2] at this; cases this
        · exact heq
        · have := hok2 j hlt; rw [Nat.add_zero, this] at hbad; cases hbad
      rw [he]
      simp [coloursFrom, ledBytes, State.transferAll, State.emitAll_nil]
  | succ m ih =>
    obtain ⟨n, rfl⟩ : ∃ n', n = n' + 1 := ⟨n - 1, by omega⟩
    have hc := readColour_ok (s := s) (base := base) (i := i) fun j hj => hok 0 j (.inl ⟨Nat.zero_lt_succ m, hj⟩)
    rw [State.sendLeds, hc]
    simp only
    have e : ∀ k, i + 1 + k = i + (k + 1) := fun k => by omega
    refine (ih n (i + 1) _ (by omega) ?_ fun m' j' h => ?_).trans ?_
    · rw [e, State.transferAll_config]; exact hbad
    · rw [e, State.transferAll_config]; exact hok (m' + 1) j' (by omega)
    · rw [State.transferAll_append, coloursFrom_transferAll, coloursFrom_succ, ledBytes_cons, e]
      simp only [State.transferAll_mem]

/-- Either every read of the loop is admitted, or there is a first one that is not. -/
theorem first_bad (c : HwConfig) (base : Addr) (n i : Nat) :
    (∀ m j, m < n → j < 3 → admits c (colourAddr base (i + m) j) = true) ∨
    ∃ m j, m < n ∧ j < 3 ∧ admits c (colourAddr base (i + m) j) = false ∧
      ∀ m' j', (m' < m ∧ j' < 3) ∨ (m' = m ∧ j' < j) → admits c (colourAddr base (i + m') j') = true := by
  induction n with
  | zero => exact .inl fun m j h => by omega
  | succ n ih =>
    rcases ih with h | ⟨m, j, hm, hj, hb, hok⟩
    · by_cases h3 : ∀ j, j < 3 → admits c (colourAddr base (i + n) j) = true
      · refine .inl fun m j hm hj => ?_
        rcases Nat.lt_succ_iff_lt_or_eq.mp hm with hm | rfl
        · exact h m j hm hj
        · exact h3 j hj
      · refine .inr ?_
        have hex : ∃ j, j < 3 ∧ admits c (colourAddr base (i + n) j) = false := by
          by_contra hne
          exact h3 fun j hj => by
            cases hv : admits c (colourAddr base (i + n) j) with
            | true => rfl
            | false => exact absurd ⟨j, hj, hv⟩ hne
        have hfind := Nat.find_spec hex
        refine ⟨n, Nat.find hex, by omega, hfind.1, hfind.2, fun m' j' h' => ?_⟩
        rcases h' with ⟨hm', hj'⟩ | ⟨rfl, hj'⟩
        · exact h m' j' hm' hj'
        · cases hv : admits c (colourAddr base (i + m') j') with
          | true => rfl
          | false => exact absurd ⟨by omega, hv⟩ (Nat.find_min hex hj')
    · exact .inr ⟨m, j, by omega, hj, hb, hok⟩

/-! exec as a whole. -/

/-- The state a completed command leaves. -/
def completed (i : Instr) (pp : PinPair) (s : State) : State :=
  ((s.flagMisuse (misuseOf i pp s)).emitAll (commandEvents i pp s)).complete i

section
variable (i : Instr) (pp : PinPair) (s : State)

@[simp] theorem completed_config : (completed i pp s).config = s.config := rfl
@[simp] theorem completed_seq : (completed i pp s).seq = none := rfl
@[simp] theorem completed_misuse : (completed i pp s).misuse = (s.misuse || misuseOf i pp s) := rfl
@[simp] theorem completed_cpc : (completed i pp s).cpc = s.cpc + s.cmdLength i := rfl
@[simp] theorem completed_trace : (completed i pp s).trace = s.trace ++ commandEvents i pp s := rfl
theorem completed_pins :
    (completed i pp s).pins = (commandEvents i pp s).foldl PinFile.apply s.pins := rfl
@[simp] theorem completed_ghost :
    (completed i pp s).ghost = store Ghost.initial s.port (ghostAfter i (s.ghostOf s.port)) s.ghost := rfl
@[simp] theorem completed_mem : (completed i pp s).mem = s.mem := rfl
@[simp] theorem completed_program : (completed i pp s).program = s.program := rfl
@[simp] theorem completed_interface : (completed i pp s).interface = s.interface := rfl
@[simp] theorem completed_port : (completed i pp s).port = s.port := rfl

/-- Whatever accepted a command accepts the next. -/
theorem completed_accepts (h : Accepts s pp) : Accepts (completed i pp s) pp where
  pinMap := by rw [completed_config]; exact h.pinMap
  bound := by rw [completed_config, completed_port]; exact h.bound
  idle := completed_seq i pp s

/-- The ghost state after a command: its own instance moves as 41_frame_protocol.md R150 says, every other stays. -/
theorem completed_ghostOf (k : Nat) :
    (completed i pp s).ghostOf k = if k = s.port then ghostAfter i (s.ghostOf k) else s.ghostOf k := by
  rw [State.ghostOf_eq_load, completed_ghost, load_store]
  by_cases h : k = s.port
  · simp [h]
  · simp [h, State.ghostOf_eq_load]

end

theorem completable_interface {i : Instr} {s : State} (h : Completable i s) :
    s.interface = .concrete ∨ inCapability i = true := by
  cases i with
  | startFrame => exact .inl h
  | sendColor r g b br => exact .inl h
  | endFrame count => exact .inl h
  | write base count br => exact .inr rfl

/-- A command that is accepted and completable completes, with the event list of 40_bit_transfer.md R119. -/
theorem exec_completes {i : Instr} {s : State} {pp : PinPair} (h : Accepts s pp) (hc : Completable i s) :
    exec i s = .next (completed i pp s) := by
  cases i with
  | startFrame =>
    simp only [exec, execStartFrame, issue_accepts h (completable_interface hc), completed, commandEvents, runsInit,
      commandBytes, State.init, State.transferAll, State.emitAll_emitAll, if_true]
  | sendColor r g b br =>
    simp [exec, execSendColor, issue_accepts h (completable_interface hc), completed, commandEvents, runsInit,
      commandBytes, State.transferAll]
  | endFrame count =>
    simp [exec, execEndFrame, issue_accepts h (completable_interface hc), completed, commandEvents, runsInit,
      commandBytes, State.finishFrame_eq]
  | write base count br =>
    simp only [exec, execWrite, issue_accepts h (completable_interface hc)]
    rw [if_neg (by simp [hc.1]), sendLeds_ok _ _ _ _ _ _ _ (fun m j hm hj => by simpa using hc.2 m j hm hj)]
    simp only [completed, commandEvents, runsInit, commandBytes, frameBytes, State.init, State.transferAll, State.finishFrame_eq,
      State.emitAll_emitAll, if_true, coloursFrom_emitAll, List.flatMap_append, List.append_assoc, ledBytes]
    rw [show coloursFrom (s.flagMisuse (misuseOf (.write base count br) pp s)) base count.toNat 0 =
      arrayColours s base count from coloursFrom_zero s base count]

/-- The state a WRITE is stuck in at byte `j` of colour `m`. -/
def stuckState (base : Addr) (count : Count) (br : Brightness) (pp : PinPair) (s : State) (m j : Nat) : State :=
  ((s.flagMisuse (misuseOf (.write base count br) pp s)).emitAll
    (initEvents pp ++ (startFrameBytes ++ ledBytes br (coloursFrom s base m 0)).flatMap (transferEvents pp))).stuckWrite
      base count br m ((List.range j).map fun j' => hostByte s.mem (colourAddr base m j'))

/-- A WRITE whose first read that is not admitted is byte `j` of colour `m`. -/
structure StuckRead (s : State) (base : Addr) (count : Count) (m j : Nat) : Prop where
  led  : m < count.toNat
  byte : j < 3
  bad  : admits s.config (colourAddr base m j) = false
  ok   : ∀ m' j', (m' < m ∧ j' < 3) ∨ (m' = m ∧ j' < j) → admits s.config (colourAddr base m' j') = true

theorem exec_write_stuck {base : Addr} {count : Count} {br : Brightness} {s : State} {pp : PinPair} {m j : Nat}
    (h : Accepts s pp) (ho : addrOverflow base count = false) (hs : StuckRead s base count m j) :
    exec (.write base count br) s = .fault (.memNotAdmitted (colourAddr base m j) (stuckState base count br pp s m j)) := by
  have hc : s.interface = .concrete ∨ inCapability (.write base count br) = true := .inr rfl
  simp only [exec, execWrite, issue_accepts h hc]
  rw [if_neg (by simp [ho]), sendLeds_stuck _ _ _ _ _ _ _ m j hs.led hs.byte (by simpa using hs.bad)
    (fun m' j' h => by simpa using hs.ok m' j' h)]
  simp only [State.init, State.transferAll, State.emitAll_emitAll, coloursFrom_emitAll, Nat.zero_add, stuckState,
    List.flatMap_append, List.append_assoc, State.emitAll_mem, State.flagMisuse_mem]
  rfl

/-- What `exec` can answer: a refusal that depends on the acceptance checks alone, the stuck fault, or completion. -/
theorem exec_next_inv {i : Instr} {s t : State} (h : exec i s = .next t) :
    ∃ pp, Accepts s pp ∧ Completable i s ∧ t = completed i pp s := by
  have key : ∀ run, s.issue i run = .next t →
      ∃ pp, Accepts s pp ∧ (s.interface = .concrete ∨ inCapability i = true) ∧ run pp = .next t := by
    intro run hr
    rcases issue_cases s i run with ⟨-, e⟩ | ⟨-, a, -, e⟩ | ⟨-, -, -, e⟩ | ⟨-, -, -, -, -, e⟩ | ⟨-, -, -, -, -, e⟩ |
      ⟨pp, ha, hc, e⟩
    all_goals rw [e] at hr
    all_goals first | cases hr | skip
    exact ⟨pp, ha, hc, hr⟩
  have fin : ∀ pp, Accepts s pp → Completable i s → ∃ pp, Accepts s pp ∧ Completable i s ∧ t = completed i pp s := by
    intro pp ha hc
    refine ⟨pp, ha, hc, ?_⟩
    rw [exec_completes ha hc] at h
    cases h; rfl
  cases i with
  | startFrame =>
    obtain ⟨pp, ha, hc, -⟩ := key _ h
    exact fin pp ha (by simpa [Completable, inCapability] using hc)
  | sendColor r g b br =>
    obtain ⟨pp, ha, hc, -⟩ := key _ h
    exact fin pp ha (by simpa [Completable, inCapability] using hc)
  | endFrame count =>
    obtain ⟨pp, ha, hc, -⟩ := key _ h
    exact fin pp ha (by simpa [Completable, inCapability] using hc)
  | write base count br =>
    obtain ⟨pp, ha, -, hr⟩ := key _ h
    by_cases ho : addrOverflow base count = true
    · simp [ho] at hr
    · have ho' : addrOverflow base count = false := by simpa using ho
      rcases first_bad s.config base count.toNat 0 with hall | ⟨m, j, hm, hj, hb, hok⟩
      · exact fin pp ha ⟨ho', fun m j hm hj => by simpa using hall m j hm hj⟩
      · have hst : StuckRead s base count m j :=
          ⟨hm, hj, by simpa using hb, fun m' j' h' => by simpa using hok m' j' h'⟩
        rw [exec_write_stuck ha ho' hst] at h; cases h

/-- `exec` answers a next state exactly on a command that is accepted and completable. -/
theorem exec_next_iff {i : Instr} {s t : State} :
    exec i s = .next t ↔ ∃ pp, Accepts s pp ∧ Completable i s ∧ t = completed i pp s :=
  ⟨exec_next_inv, fun ⟨_, ha, hc, e⟩ => e ▸ exec_completes ha hc⟩

/-- `exec` answers the stuck fault only in a state that is stuck already, or on a WRITE at its first read that is not
admitted. -/
theorem exec_fault_inv {i : Instr} {s : State} {f : Fault} (h : exec i s = .fault f) :
    (∃ a, s.stuckAt = some a ∧ f = .memNotAdmitted a s) ∨
    ∃ pp base count br m j, Accepts s pp ∧ i = .write base count br ∧ addrOverflow base count = false ∧
      StuckRead s base count m j ∧ f = .memNotAdmitted (colourAddr base m j) (stuckState base count br pp s m j) := by
  have key : ∀ run, s.issue i run = .fault f →
      (∃ a, s.stuckAt = some a ∧ f = .memNotAdmitted a s) ∨ ∃ pp, Accepts s pp ∧ run pp = .fault f := by
    intro run hr
    rcases issue_cases s i run with ⟨-, e⟩ | ⟨-, a, ha, e⟩ | ⟨-, -, -, e⟩ | ⟨-, -, -, -, -, e⟩ | ⟨-, -, -, -, -, e⟩ |
      ⟨pp, ha, hc, e⟩
    all_goals rw [e] at hr
    · cases hr
    · cases hr; exact .inl ⟨a, ha, rfl⟩
    · cases hr
    · cases hr
    · cases hr
    · exact .inr ⟨pp, ha, hr⟩
  cases i with
  | startFrame => rcases key _ h with h | ⟨pp, ha, hr⟩
                  · exact .inl h
                  · cases hr
  | sendColor r g b br => rcases key _ h with h | ⟨pp, ha, hr⟩
                          · exact .inl h
                          · cases hr
  | endFrame count => rcases key _ h with h | ⟨pp, ha, hr⟩
                      · exact .inl h
                      · cases hr
  | write base count br =>
    rcases key _ h with h | ⟨pp, ha, hr⟩
    · exact .inl h
    · refine .inr ?_
      by_cases ho : addrOverflow base count = true
      · simp [ho] at hr
      · have ho' : addrOverflow base count = false := by simpa using ho
        rcases first_bad s.config base count.toNat 0 with hall | ⟨m, j, hm, hj, hb, hok⟩
        · have hc : Completable (.write base count br) s := ⟨ho', fun m j hm hj => by simpa using hall m j hm hj⟩
          rw [exec_completes ha hc] at h; cases h
        · have hst : StuckRead s base count m j :=
            ⟨hm, hj, by simpa using hb, fun m' j' h' => by simpa using hok m' j' h'⟩
          rw [exec_write_stuck ha ho' hst] at h
          cases h
          exact ⟨pp, base, count, br, m, j, ha, rfl, ho', hst, rfl⟩

/-- A step that answers a next state is a completed command on its port. -/
theorem step_next_inv {s t : State} (h : step s = .next t) :
    ∃ k i pp, s.fetch = .command k i ∧ Accepts (s.setPort k) pp ∧ Completable i (s.setPort k) ∧
      t = completed i pp (s.setPort k) := by
  unfold step at h
  split at h
  · cases h
  · split at h
    · cases h
    · split at h
      · cases h
      · cases h
      · next k i hf =>
        obtain ⟨pp, ha, hc, e⟩ := exec_next_inv h
        exact ⟨k, i, pp, hf, ha, hc, e⟩

/-! The bytes of a command. -/

/-- Every command sends at least one byte. -/
theorem commandBytes_snoc (i : Instr) (s : State) : ∃ front last, commandBytes i s = front ++ [last] ∧
    last = match i with
      | .startFrame => 0x00#8
      | .sendColor r _ _ _ => r
      | .endFrame _ => 0x00#8
      | .write _ _ _ => 0x00#8 := by
  have hend : ∀ count : Count, ∃ front, endFrameBytes count = front ++ [0x00#8] := fun count =>
    ⟨0xFF#8 :: List.replicate (4 + count.toNat / 16) 0x00#8, by
      rw [endFrameBytes, endZeros, show 5 + count.toNat / 16 = 4 + count.toNat / 16 + 1 by omega,
        List.replicate_succ', List.cons_append]⟩
  cases i with
  | startFrame => exact ⟨[0, 0, 0], _, rfl, rfl⟩
  | sendColor r g b br => exact ⟨[headerByte br, b, g], _, rfl, rfl⟩
  | endFrame count =>
    obtain ⟨front, hf⟩ := hend count
    exact ⟨front, _, hf, rfl⟩
  | write base count br =>
    obtain ⟨front, hf⟩ := hend count
    refine ⟨startFrameBytes ++ ledBytes br (arrayColours s base count) ++ front, _, ?_, rfl⟩
    rw [commandBytes, frameBytes, hf]; simp [ledBytes]

/-! The pins after a command. -/

theorem accepts_pins_ne {s : State} {pp : PinPair} (h : Accepts s pp) : pp.clk ≠ pp.data :=
  (((pinMapOk_iff _).1 h.pinMap).2 _ _ h.bound).1

theorem accepts_bound_eq {s : State} {pp pp' : PinPair} (h : Accepts s pp) (h' : s.config.bindings[s.port]? = some pp') :
    pp' = pp := by
  rw [h.bound] at h'; cases h'; rfl

/-- The pins of another instance: its data pin is no pin of the running one, its clock pin may be shared
(10_state.md R35). -/
theorem accepts_other_pins {s : State} {pp other : PinPair} {k : Nat} (h : Accepts s pp)
    (hb : s.config.bindings[k]? = some other) (hk : k ≠ s.port) :
    other.data ≠ pp.clk ∧ other.data ≠ pp.data ∧ other.clk ≠ pp.data := by
  have h1 := (((pinMapOk_iff _).1 h.pinMap).2 _ _ hb).2 _ _ h.bound (Ne.symm hk)
  have h2 := (((pinMapOk_iff _).1 h.pinMap).2 _ _ h.bound).2 _ _ hb hk
  exact ⟨h1.1, h1.2, h2.1.symm⟩

theorem completed_find? (i : Instr) (pp : PinPair) (s : State) (hc : pp.clk ≠ pp.data) (p : Pin) :
    find? p (completed i pp s).pins.q = if p = pp.clk then some false else if p = pp.data then some
      (match i with
        | .startFrame => false
        | .sendColor r _ _ _ => r.getLsbD 0
        | .endFrame _ => false
        | .write _ _ _ => false) else find? p s.pins.q := by
  obtain ⟨front, last, hb, hl⟩ := commandBytes_snoc i s
  rw [completed_pins, commandEvents, List.foldl_append, hb, transfers_find? _ hc]
  by_cases h1 : p = pp.clk
  · simp [h1]
  · by_cases h2 : p = pp.data
    · subst h2
      simp only [if_neg hc.symm, if_true, hl]; cases i <;> simp
    · simp only [h1, h2, if_false]
      split
      · rw [init_find?]; simp [h1, h2]
      · rfl

theorem completed_oeBit (i : Instr) (pp : PinPair) (s : State) (p : Pin) :
    (completed i pp s).pins.oeBit p = ((runsInit i && decide (p = pp.clk ∨ p = pp.data)) || s.pins.oeBit p) := by
  rw [completed_pins, commandEvents, List.foldl_append, transfers_oe]
  cases h : runsInit i
  · simp
  · simp [init_oe]

/-- What a completed command leaves as it was. -/
theorem completed_frame {s : State} {pp : PinPair} (h : Accepts s pp) (i : Instr) : Frame s (completed i pp s) pp := by
  have hc := accepts_pins_ne h
  refine ⟨completed_config i pp s, fun a => by rw [completed_mem], completed_program i pp s, completed_interface i pp s,
    completed_port i pp s, fun p h1 h2 => ?_, fun p h1 h2 => ?_, fun k hk => ?_⟩
  · rw [completed_oeBit]; simp [h1, h2]
  · rw [latch_eq, completed_find? _ _ _ hc, latch_eq]; simp [h1, h2]
  · rw [completed_ghostOf]; simp [hk]

theorem sharedClockMisuse_iff (s : State) (pp : PinPair) :
    sharedClockMisuse s pp = true ↔ SharedClockStreaming s pp := by
  simp only [sharedClockMisuse, List.any_eq_true, List.mem_range, Bool.and_eq_true, decide_eq_true_eq,
    SharedClockStreaming]
  constructor
  · rintro ⟨k, hk, ⟨h1, h2⟩, h3⟩
    rw [Option.map_eq_some_iff] at h2
    obtain ⟨pk, h4, h5⟩ := h2
    exact ⟨k, pk, h1, h4, h5, h3⟩
  · rintro ⟨k, pk, h1, h2, h3, h4⟩
    exact ⟨k, (List.getElem?_eq_some_iff.mp h2).1, ⟨h1, by rw [h2]; simp [h3]⟩, h4⟩

theorem length_ledBytes (br : Brightness) (cs : List Colour) : (ledBytes br cs).length = 4 * cs.length := by
  induction cs with
  | nil => rfl
  | cons c cs ih => rw [ledBytes_cons, List.length_append, ih]; simp [ledWord]; omega

theorem length_arrayColours (s : State) (base : Addr) (count : Count) :
    (arrayColours s base count).length = count.toNat := by simp [arrayColours]

theorem length_endFrameBytes (count : Count) : (endFrameBytes count).length = 6 + count.toNat / 16 := by
  simp [endFrameBytes, endZeros]; omega

theorem headerByte_eq_add (br : Brightness) : headerByte br = 0xE0#8 + br.setWidth 8 := by revert br; decide

end Sys2Proof.Machine
end

