-- ==== Sys2Proof/Laws/Decode.lean ====
section
/-! SUPPORT. The fields of an encoded command, and what the decoder answers (30_encoding.md R91 to R98). -/

namespace Sys2Proof.Machine

/-! The fields of the words that `encode` writes. -/

theorem opField_color (r g b : Byte) (br : Brightness) : opField (0b010#3 ++ br ++ r ++ g ++ b) = 2#3 := by
  simp only [opField]; ext i hi; simp only [BitVec.getElem_extractLsb', BitVec.getLsbD_append]; interval_cases i <;> simp

theorem opField_end (c : Count) : opField (0b011#3 ++ 0#13 ++ c) = 3#3 := by
  simp only [opField]; ext i hi; simp only [BitVec.getElem_extractLsb', BitVec.getLsbD_append]; interval_cases i <;> simp

theorem opField_write (c : Count) (br : Brightness) : opField (0b100#3 ++ br ++ 0#8 ++ c) = 4#3 := by
  simp only [opField]; ext i hi; simp only [BitVec.getElem_extractLsb', BitVec.getLsbD_append]; interval_cases i <;> simp

theorem redField_color (r g b : Byte) (br : Brightness) : redField (0b010#3 ++ br ++ r ++ g ++ b) = r := by
  simp only [redField]; ext i hi; simp only [BitVec.getElem_extractLsb', BitVec.getLsbD_append]; interval_cases i <;> simp

theorem greenField_color (r g b : Byte) (br : Brightness) : greenField (0b010#3 ++ br ++ r ++ g ++ b) = g := by
  simp only [greenField]; ext i hi; simp only [BitVec.getElem_extractLsb', BitVec.getLsbD_append]; interval_cases i <;> simp

theorem blueField_color (r g b : Byte) (br : Brightness) : blueField (0b010#3 ++ br ++ r ++ g ++ b) = b := by
  simp only [blueField]; ext i hi; simp only [BitVec.getElem_extractLsb', BitVec.getLsbD_append]; interval_cases i <;> simp

theorem brField_color (r g b : Byte) (br : Brightness) : brField (0b010#3 ++ br ++ r ++ g ++ b) = br := by
  simp only [brField]; ext i hi; simp only [BitVec.getElem_extractLsb', BitVec.getLsbD_append]; interval_cases i <;> simp

theorem countField_end (c : Count) : countField (0b011#3 ++ 0#13 ++ c) = c := by
  simp only [countField]; ext i hi; simp only [BitVec.getElem_extractLsb', BitVec.getLsbD_append]; interval_cases i <;> simp

theorem reserved_end (c : Count) : (0b011#3 ++ 0#13 ++ c : BitVec 32).extractLsb' 16 13 = 0 := by
  ext i hi; simp only [BitVec.getElem_extractLsb', BitVec.getLsbD_append]; interval_cases i <;> simp

theorem countField_write (c : Count) (br : Brightness) : countField (0b100#3 ++ br ++ 0#8 ++ c) = c := by
  simp only [countField]; ext i hi; simp only [BitVec.getElem_extractLsb', BitVec.getLsbD_append]; interval_cases i <;> simp

theorem brField_write (c : Count) (br : Brightness) : brField (0b100#3 ++ br ++ 0#8 ++ c) = br := by
  simp only [brField]; ext i hi; simp only [BitVec.getElem_extractLsb', BitVec.getLsbD_append]; interval_cases i <;> simp

theorem redField_write (c : Count) (br : Brightness) : redField (0b100#3 ++ br ++ 0#8 ++ c) = 0 := by
  simp only [redField]; ext i hi; simp only [BitVec.getElem_extractLsb', BitVec.getLsbD_append]; interval_cases i <;> simp

/-! The fields as numbers. -/

theorem toNat_opField (w : Word) : (opField w).toNat = w.toNat / 2 ^ 29 := by
  have := w.isLt
  simp [opField, BitVec.extractLsb'_toNat, Nat.shiftRight_eq_div_pow]; omega

theorem toNat_redField (w : Word) : (redField w).toNat = w.toNat / 2 ^ 16 % 2 ^ 8 := by
  simp [redField, BitVec.extractLsb'_toNat, Nat.shiftRight_eq_div_pow]

theorem redField_eq_zero (w : Word) : redField w = 0 ↔ w.toNat / 2 ^ 16 % 2 ^ 8 = 0 := by
  rw [← toNat_redField, ← BitVec.toNat_inj]; rfl

theorem endReserved_eq_zero (w : Word) : w.extractLsb' 16 13 = 0 ↔ w.toNat / 2 ^ 16 % 2 ^ 13 = 0 := by
  rw [← BitVec.toNat_inj]; simp [BitVec.extractLsb'_toNat, Nat.shiftRight_eq_div_pow]

theorem startReserved_eq_zero (w : Word) : w.extractLsb' 0 29 = 0 ↔ w.toNat % 2 ^ 29 = 0 := by
  rw [← BitVec.toNat_inj]; simp [BitVec.extractLsb'_toNat, Nat.shiftRight_eq_div_pow]

/-- What the decoder answers, and when. -/
theorem decode_cases (w : Word) (next : Option Word) :
    (w.toNat / 2 ^ 29 = 1 ∧ w.toNat % 2 ^ 29 = 0 ∧ decode w next = .ok (.startFrame, 1)) ∨
    (w.toNat / 2 ^ 29 = 2 ∧ decode w next = .ok (.sendColor (redField w) (greenField w) (blueField w) (brField w), 1)) ∨
    (w.toNat / 2 ^ 29 = 3 ∧ w.toNat / 2 ^ 16 % 2 ^ 13 = 0 ∧ decode w next = .ok (.endFrame (countField w), 1)) ∨
    (w.toNat / 2 ^ 29 = 4 ∧ w.toNat / 2 ^ 16 % 2 ^ 8 = 0 ∧ next = none ∧ decode w next = .error .truncated) ∨
    (w.toNat / 2 ^ 29 = 4 ∧ w.toNat / 2 ^ 16 % 2 ^ 8 = 0 ∧
      ∃ b, next = some b ∧ decode w next = .ok (.write b (countField w) (brField w), 2)) ∨
    (ReservedWord w ∧ decode w next = .error .reservedEncoding) := by
  have h1 := toNat_opField w
  have hlt : w.toNat / 2 ^ 29 < 8 := by have := w.isLt; omega
  have hr := redField_eq_zero w
  have he := endReserved_eq_zero w
  have hs := startReserved_eq_zero w
  unfold ReservedWord decode
  rw [h1]
  generalize w.toNat / 2 ^ 29 = k at hlt ⊢
  generalize w.toNat % 2 ^ 29 = ps at hs ⊢
  generalize w.toNat / 2 ^ 16 % 2 ^ 13 = pe at he ⊢
  generalize w.toNat / 2 ^ 16 % 2 ^ 8 = pr at hr ⊢
  simp only [hs, he, ne_eq, hr]
  interval_cases k
  · simp
  · by_cases h : ps = 0 <;> simp [h]
  · simp
  · by_cases h : pe = 0 <;> simp [h]
  · by_cases h : pr = 0
    · cases next <;> simp [h]
    · simp [h]
  · simp
  · simp
  · simp

end Sys2Proof.Machine
end

