-- ==== Sys2Proof/Laws/PerInstr.lean ====
section
/-! SUPPORT. Statements about every command as syntax, one lemma per constructor. -/

namespace Sys2Proof.Laws

/-- A command takes as many words as its format says (30_encoding.md R91), and its operands are in range (R88, R100). -/
def EncodeLength.Statement (i : Instr) : Prop := (encode i).length = i.wordCount ∧ i.wellFormed = true

theorem EncodeLength.startFrame : EncodeLength.Statement .startFrame := ⟨rfl, rfl⟩

theorem EncodeLength.sendColor (r g b : Byte) (br : Brightness) : EncodeLength.Statement (.sendColor r g b br) := by
  refine ⟨rfl, ?_⟩
  have hr := r.isLt
  have hg := g.isLt
  have hb := b.isLt
  simp [Instr.wellFormed, Instr.toAsm, AsmCmd.wellFormed, AsmCmd.countOk, AsmCmd.channelsOk, channelInRange]
  omega

theorem EncodeLength.endFrame (count : Count) : EncodeLength.Statement (.endFrame count) := by
  refine ⟨rfl, ?_⟩
  have hc := count.isLt
  simp [Instr.wellFormed, Instr.toAsm, AsmCmd.wellFormed, AsmCmd.countOk, AsmCmd.channelsOk, countInRange]
  omega

theorem EncodeLength.write (base : Addr) (count : Count) (br : Brightness) :
    EncodeLength.Statement (.write base count br) := by
  refine ⟨rfl, ?_⟩
  have hc := count.isLt
  simp [Instr.wellFormed, Instr.toAsm, AsmCmd.wellFormed, AsmCmd.countOk, AsmCmd.channelsOk, countInRange]
  omega

end Sys2Proof.Laws
end

