-- ==== Sys2Proof/Laws/Sequencer.lean ====
section
/-! SUPPORT. The actions of the sequencer (10_state.md R39), one by one and by the bit, the byte and the colour. -/

namespace Sys2Proof.Machine

/-- Actions compose. -/
theorem ticks_add (a b : Nat) (s : State) : State.ticks (a + b) s = (State.ticks a s).bind (State.ticks b) := by
  induction a generalizing s with
  | zero => simp [State.ticks]
  | succ a ih =>
    rw [show a + 1 + b = (a + b) + 1 by omega]
    simp only [State.ticks]
    cases h : s.tick <;> simp [ih]


theorem goOn_setSeq (s : State) (r : Option Running) (i : Instr) (x : Option Running) : (s.setSeq r).goOn i x = s.goOn i x := by
  cases x <;> rfl
theorem goOn_emitAll (s : State) (r : Option Running) (ev : List Event) (i : Instr) (x : Option Running) :
   ((s.setSeq r).emitAll ev).goOn i x = (s.emitAll ev).goOn i x := by cases x <;> rfl

section
variable (s : State) (inst : Nat) (cmd : Instr) (led : Nat) (col : List Byte) (pp : PinPair) (hb : s.config.bindings[inst]? = some pp)
include hb
/-- The three events of a bit. -/
theorem tick_setData (n : Nat) (i : Fin 8) : (s.setSeq (some ⟨inst, cmd, .bit n i .setData, led, col⟩)).tick =
   some ((s.emitAll [.set pp.data ((Running.byteAt ⟨inst, cmd, .read, led, col⟩ n).getLsbD i.val)]).setSeq (some ⟨inst, cmd, .bit n i .raiseClock, led, col⟩)) := by
  simp only [State.tick, State.setSeq_seq, State.setSeq_config, hb]; rfl
theorem tick_raiseClock (n : Nat) (i : Fin 8) : (s.setSeq (some ⟨inst, cmd, .bit n i .raiseClock, led, col⟩)).tick =
   some ((s.emitAll [.set pp.clk true]).setSeq (some ⟨inst, cmd, .bit n i .lowerClock, led, col⟩)) := by
  simp only [State.tick, State.setSeq_seq, State.setSeq_config, hb]; rfl
theorem tick_lowerClock (n : Nat) (i : Fin 8) : (s.setSeq (some ⟨inst, cmd, .bit n i .lowerClock, led, col⟩)).tick =
   some ((s.emitAll [.set pp.clk false]).goOn cmd (if i.val = 0 then Running.atByte ⟨inst, cmd, .read, led, col⟩ (n+1) else some ⟨inst, cmd, .bit n (i-1) .setData, led, col⟩)) := by
  simp only [State.tick, State.setSeq_seq, State.setSeq_config, hb]; rfl
/-- The events of INIT. -/
theorem tick_init (n : Fin 4) : (s.setSeq (some ⟨inst, cmd, .init n, led, col⟩)).tick =
   some ((s.emitAll ((initEvents pp)[n.val]?).toList).goOn cmd (if n.val = 3 then Running.atByte ⟨inst, cmd, .read, led, col⟩ 0 else some ⟨inst, cmd, .init (n+1), led, col⟩)) := by
  simp only [State.tick, State.setSeq_seq, State.setSeq_config, hb]; rfl
/-- A colour read that is admitted. -/
theorem tick_read (base : Addr) (count : Count) (br : Brightness) (h : admits s.config (colourAddr base led col.length) = true) :
   (s.setSeq (some ⟨inst, .write base count br, .read, led, col⟩)).tick =
   some (s.setSeq (some ⟨inst, .write base count br, if col.length = 2 then .bit (4+4*led) 7 .setData else .read, led, col ++ [hostByte s.mem (colourAddr base led col.length)]⟩)) := by
  simp only [State.tick, State.setSeq_seq, State.setSeq_config, hb, State.memRead, h, State.setSeq_mem, if_true, goOn_setSeq]
  by_cases h2 : col.length = 2 <;> simp [State.goOn, h2]
/-- A colour read that is not admitted has no action. -/
theorem tick_read_stuck (base : Addr) (count : Count) (br : Brightness) (h : admits s.config (colourAddr base led col.length) = false) :
   (s.setSeq (some ⟨inst, .write base count br, .read, led, col⟩)).tick = none := by
  simp [State.tick, State.memRead, h, hb]

/-- A whole bit. -/
theorem ticks_bit (n : Nat) (i : Fin 8) :
  State.ticks 3 (s.setSeq (some ⟨inst, cmd, .bit n i .setData, led, col⟩)) =
    some ((s.emitAll (bitEvents pp ((Running.byteAt ⟨inst, cmd, .read, led, col⟩ n).getLsbD i.val))).goOn cmd
          (if i.val = 0 then Running.atByte ⟨inst, cmd, .read, led, col⟩ (n + 1) else some ⟨inst, cmd, .bit n (i-1) .setData, led, col⟩)) := by
  simp only [State.ticks]
  rw [tick_setData s inst cmd led col pp hb]; simp only
  rw [tick_raiseClock _ inst cmd led col pp (by simpa using hb)]; simp only
  rw [tick_lowerClock _ inst cmd led col pp (by simpa using hb)]
  simp only [State.emitAll_emitAll]; rfl

/-- A whole byte is a TRANSFER. -/
theorem ticks_byte (n : Nat) :
  State.ticks 24 (s.setSeq (some ⟨inst, cmd, .bit n 7 .setData, led, col⟩)) =
    some ((s.transferAll pp [Running.byteAt ⟨inst, cmd, .read, led, col⟩ n]).goOn cmd (Running.atByte ⟨inst, cmd, .read, led, col⟩ (n + 1))) := by
  have st : ∀ (k : Nat) (s : State), s.config.bindings[inst]? = some pp → ∀ i j : Fin 8, i.val ≠ 0 → i - 1 = j →
     State.ticks (3 + k) (s.setSeq (some ⟨inst, cmd, .bit n i .setData, led, col⟩)) =
     State.ticks k ((s.emitAll (bitEvents pp ((Running.byteAt ⟨inst, cmd, .read, led, col⟩ n).getLsbD i.val))).setSeq (some ⟨inst, cmd, .bit n j .setData, led, col⟩)) := by
    intro k s hb i j hi hj
    rw [ticks_add, ticks_bit s inst cmd led col pp hb n i, if_neg hi, hj]; rfl
  rw [show 24 = 3 + (3 + (3 + (3 + (3 + (3 + (3 + 3)))))) from rfl]
  rw [st _ _ hb 7 6 (by decide) (by decide), st _ _ (by simpa using hb) 6 5 (by decide) (by decide), st _ _ (by simpa using hb) 5 4 (by decide) (by decide), st _ _ (by simpa using hb) 4 3 (by decide) (by decide), st _ _ (by simpa using hb) 3 2 (by decide) (by decide), 
    st _ _ (by simpa using hb) 2 1 (by decide) (by decide), st _ _ (by simpa using hb) 1 0 (by decide) (by decide), ticks_bit _ inst cmd led col pp (by simpa using hb) _ 0]
  simp only [State.emitAll_emitAll]
  rfl

/-- Bytes `n .. n + m - 1`, with no colour read among them. -/
theorem ticks_bytes (m : Nat) (n : Nat)
  (h1 : n + m < byteCount cmd + 1) (h2 : ∀ j, n ≤ j → j < n + m → startsLed cmd j = false) :
  State.ticks (24 * m) (s.goOn cmd (Running.atByte ⟨inst, cmd, .read, led, col⟩ n)) = some ((s.transferAll pp ((List.range m).map fun j => Running.byteAt ⟨inst, cmd, .read, led, col⟩ (n + j))).goOn cmd (Running.atByte ⟨inst, cmd, .read, led, col⟩ (n + m))) := by
  induction m generalizing n s with
  | zero => simp [State.ticks, State.transferAll, State.emitAll_nil]
  | succ m ih =>
    have ha : Running.atByte ⟨inst, cmd, .read, led, col⟩ n = some ⟨inst, cmd, .bit n 7 .setData, led, col⟩ := by
      rw [Running.atByte, if_neg (by simp only; omega), h2 n (by omega) (by omega)]; rfl
    rw [show 24 * (m+1) = 24 + 24 * m by omega, ticks_add, ha]
    simp only [State.goOn]
    rw [ticks_byte s inst cmd led col pp hb n, Option.bind_some]
    have := ih (s.transferAll pp [Running.byteAt ⟨inst, cmd, .read, led, col⟩ n]) (by simpa using hb) (n+1) (by omega) (fun j h1 h3 => h2 j (by omega) (by omega))
    simp only [State.goOn] at this ⊢
    rw [this, State.transferAll_append, List.range_succ_eq_map]
    simp only [List.map_cons, List.map_map, Nat.add_zero, List.singleton_append]
    have e : ((fun j => Running.byteAt ⟨inst, cmd, .read, led, col⟩ (n + j)) ∘ Nat.succ) = fun j => Running.byteAt ⟨inst, cmd, .read, led, col⟩ (n + 1 + j) := by
      funext j; simp [Nat.add_assoc, Nat.add_comm 1]
    rw [e, show n + 1 + m = n + (m+1) by omega]

/-- The whole of INIT. -/
theorem ticks_init : State.ticks 4 (s.setSeq (some ⟨inst, cmd, .init 0, led, col⟩)) = some ((s.init pp).goOn cmd (Running.atByte ⟨inst, cmd, .read, led, col⟩ 0)) := by
  have st : ∀ (k : Nat) (s : State), s.config.bindings[inst]? = some pp → ∀ i j : Fin 4, i.val ≠ 3 → i + 1 = j →
     State.ticks (k+1) (s.setSeq (some ⟨inst, cmd, .init i, led, col⟩)) =
     State.ticks k ((s.emitAll ((initEvents pp)[i.val]?).toList).setSeq (some ⟨inst, cmd, .init j, led, col⟩)) := by
    intro k s hb i j hi hj
    simp only [State.ticks]
    rw [tick_init s inst cmd led col pp hb, if_neg hi, hj]; rfl
  rw [st _ _ hb 0 1 (by decide) (by decide), st _ _ (by simpa using hb) 1 2 (by decide) (by decide), st _ _ (by simpa using hb) 2 3 (by decide) (by decide)]
  simp only [State.ticks]
  rw [tick_init _ inst cmd led col pp (by simpa using hb)]
  simp only [State.emitAll_emitAll]; rfl

/-- The first `j` colour reads of an LED. -/
theorem ticks_reads (base : Addr) (count : Count) (br : Brightness) (j : Nat) (hj : j ≤ 3)
   (hok : ∀ j', j' < j → admits s.config (colourAddr base led j') = true) :
  State.ticks j (s.setSeq (some ⟨inst, .write base count br, .read, led, []⟩)) = some (s.setSeq (some ⟨inst, .write base count br, 
     if j = 3 then .bit (4 + 4 * led) 7 .setData else .read, led, (List.range j).map fun j' => hostByte s.mem (colourAddr base led j')⟩)) := by
  obtain rfl | rfl | rfl | rfl : j = 0 ∨ j = 1 ∨ j = 2 ∨ j = 3 := by omega
  · simp [State.ticks]
  · simp only [State.ticks]; rw [tick_read s inst led [] pp hb _ _ _ (hok 0 (by omega))]; simp [List.range_succ]
  · simp only [State.ticks]; rw [tick_read s inst led [] pp hb _ _ _ (hok 0 (by omega))]; simp
    rw [tick_read s inst led _ pp hb _ _ _ (hok 1 (by omega))]; simp [List.range_succ]
  · simp only [State.ticks]; rw [tick_read s inst led [] pp hb _ _ _ (hok 0 (by omega))]; simp
    rw [tick_read s inst led _ pp hb _ _ _ (hok 1 (by omega))]; simp
    rw [tick_read s inst led _ pp hb _ _ _ (hok 2 (by omega))]; simp [List.range_succ]
end

end Sys2Proof.Machine
end

