-- ==== Sys2Proof/Laws/Wire.lean ====
section
/-! SUPPORT. What a strip samples from the events of INIT and TRANSFER (40_bit_transfer.md R118, R119). -/

namespace Sys2Proof.Machine

/-- The bits of a list of events are those of its parts, the second part from where the first ends. -/
theorem sampledBits_append (st : PinPair) (f : PinFile) (a b : List Event) :
    sampledBits st f (a ++ b) = sampledBits st f a ++ sampledBits st (a.foldl PinFile.apply f) b := by
  induction a generalizing f with
  | nil => rfl
  | cons e a ih => simp only [List.cons_append, sampledBits, List.foldl_cons]; split <;> simp [ih]

theorem wire_apply_set (f : PinFile) (a p : Pin) (l : Level) :
    (f.apply (.set a l)).wire p = if p = a ∧ f.oeBit p = true then .driven l else f.wire p := by
  simp only [PinFile.wire, oeBit_apply, latch_apply_set]
  by_cases h : p = a <;> cases f.oeBit p <;> simp [h]

/-! The waveform of a pin (00_scope.md R7). -/

@[simp] theorem waveform_nil (p : Pin) (f : PinFile) : waveform p f [] = [f.wire p] := rfl

@[simp] theorem waveform_cons (p : Pin) (f : PinFile) (ev : Event) (evs : List Event) :
    waveform p f (ev :: evs) = f.wire p :: waveform p (f.apply ev) evs := rfl

/-- One level before the first event and one after each. -/
@[simp] theorem length_waveform (p : Pin) (f : PinFile) (evs : List Event) : (waveform p f evs).length = evs.length + 1 := by
  induction evs generalizing f with
  | nil => rfl
  | cons ev evs ih => simp [ih]

/-- The first level is that of the pin state the events start in. -/
@[simp] theorem waveform_zero (p : Pin) (f : PinFile) (evs : List Event) : (waveform p f evs)[0]? = some (f.wire p) := by
  cases evs <;> rfl

@[simp] theorem waveform_succ (p : Pin) (f : PinFile) (ev : Event) (evs : List Event) (n : Nat) :
    (waveform p f (ev :: evs))[n + 1]? = (waveform p (f.apply ev) evs)[n]? := rfl

@[simp] theorem State.observeRun_trace (s : State) : s.observeRun.trace = s.trace := rfl

/-- A final end, spelled out (70_reset_and_hazards.md R222, 60_exceptions.md R176). -/
theorem State.final_iff (s : State) :
    s.final = true ↔ pinMapOk s.config = true ∧ s.cpc = s.program.length ∧ s.seq = none := by
  simp [State.final, and_assoc]

/-- A rising edge is `Set(c, 1)` on an output whose latch was 0. -/
theorem isRisingEdge_iff (c : Pin) (f : PinFile) (ev : Event) : isRisingEdge c f ev = true ↔
    ev = .set c true ∧ f.oeBit c = true ∧ f.latch c = false := by
  cases ev with
  | cfg p => simp [isRisingEdge]
  | set p l =>
    simp only [isRisingEdge, wire_apply_set]
    by_cases h : p = c
    · subst h; cases l <;> cases f.oeBit p <;> cases f.latch p <;> simp
    · simp [h]

/-- Events that never set the clock pin to 1 sample nothing. -/
theorem sampledBits_no_rise {st : PinPair} {evs : List Event} (h : .set st.clk true ∉ evs) (f : PinFile) : sampledBits st f evs = [] := by
  induction evs generalizing f with
  | nil => rfl
  | cons e evs ih =>
    simp only [sampledBits]
    have : isRisingEdge st.clk f e ≠ true := by rw [ne_eq, isRisingEdge_iff]; rintro ⟨rfl, -⟩; exact h List.mem_cons_self
    rw [if_neg this]; exact ih (fun h' => h (List.mem_cons_of_mem _ h')) _

/-- While the clock line is not an output nothing is sampled. -/
theorem sampledBits_not_driven {st : PinPair} {evs : List Event} (h : .cfg st.clk ∉ evs) (f : PinFile) (hf : f.oeBit st.clk = false) : sampledBits st f evs = [] := by
  induction evs generalizing f with
  | nil => rfl
  | cons e evs ih =>
    simp only [sampledBits]
    have : isRisingEdge st.clk f e ≠ true := by rw [ne_eq, isRisingEdge_iff]; rintro ⟨-, h2, -⟩; simp [hf] at h2
    rw [if_neg this]; refine ih (fun h' => h (List.mem_cons_of_mem _ h')) _ ?_
    rw [oeBit_apply, hf]; simp; rintro rfl; exact h List.mem_cons_self

/-- One bit gives one sample on every strip of its clock line: the bit itself on its own data line, the held value on another. -/
theorem sampledBits_bit (pp st : PinPair) (hc : pp.clk ≠ pp.data) (hs : st.clk = pp.clk) (hsd : st.data ≠ pp.clk) (f : PinFile) (l : Level)
   (ho : f.oeBit pp.clk = true) (hl : f.latch pp.clk = false) :
   sampledBits st f (bitEvents pp l) = [if st.data = pp.data ∧ f.oeBit st.data = true then .driven l else f.wire st.data] := by
  simp only [bitEvents, sampledBits, hs]
  have r1 : isRisingEdge pp.clk f (.set pp.data l) ≠ true := by
    rw [ne_eq, isRisingEdge_iff]; rintro ⟨h, -⟩; injection h with h _; exact hc h.symm
  have r2 : isRisingEdge pp.clk (f.apply (.set pp.data l)) (.set pp.clk true) = true := by
    rw [isRisingEdge_iff]; refine ⟨rfl, ?_, ?_⟩
    · rw [oeBit_apply, ho]; simp
    · rw [latch_apply_set]; simp [hc, hl]
  have r3 : isRisingEdge pp.clk ((f.apply (.set pp.data l)).apply (.set pp.clk true)) (.set pp.clk false) ≠ true := by
    rw [ne_eq, isRisingEdge_iff]; rintro ⟨h, -⟩; cases h
  rw [if_neg r1, if_pos r2, if_neg r3, wire_apply_set, wire_apply_set]
  simp [hsd]

/-- The samples of a list of bits. -/
theorem sampledBits_bits (pp st : PinPair) (hc : pp.clk ≠ pp.data) (hs : st.clk = pp.clk) (hsd : st.data ≠ pp.clk) (f : PinFile) (ls : List Level)
   (ho : f.oeBit pp.clk = true) (hl : f.latch pp.clk = false) :
   sampledBits st f (ls.flatMap (bitEvents pp)) = ls.map fun l => if st.data = pp.data ∧ f.oeBit st.data = true then .driven l else f.wire st.data := by
  induction ls generalizing f with
  | nil => rfl
  | cons l ls ih =>
    rw [List.flatMap_cons, sampledBits_append, sampledBits_bit pp st hc hs hsd f l ho hl, ih]
    · simp only [List.map_cons, List.cons_append, List.nil_append, List.cons.injEq, true_and]
      apply List.map_congr_left; intro a _
      have e1 : ((bitEvents pp l).foldl PinFile.apply f).oeBit st.data = f.oeBit st.data := by
        rw [foldl_oeBit]; simp [bitEvents]
      rw [e1]
      by_cases h : st.data = pp.data
      · cases h2 : f.oeBit st.data
        · simp [PinFile.wire, e1, h2]
        · simp [h]
      · have : ((bitEvents pp l).foldl PinFile.apply f).wire st.data = f.wire st.data := by
          simp [bitEvents, wire_apply_set, h, hsd]
        simp [h, this]
    · rw [foldl_oeBit, ho]; simp
    · simp [bitEvents, latch_apply_set]

/-- The samples of a list of TRANSFERs. -/
theorem sampledBits_bytes (pp st : PinPair) (hc : pp.clk ≠ pp.data) (hs : st.clk = pp.clk) (hsd : st.data ≠ pp.clk) (f : PinFile) (bs : List Byte)
   (ho : f.oeBit pp.clk = true) (hl : f.latch pp.clk = false) :
   sampledBits st f (bs.flatMap (transferEvents pp)) = (bs.flatMap byteBits).map fun l => if st.data = pp.data ∧ f.oeBit st.data = true then .driven l else f.wire st.data := by
  have : bs.flatMap (transferEvents pp) = (bs.flatMap byteBits).flatMap (bitEvents pp) := by
    rw [List.flatMap_assoc]; rfl
  rw [this, sampledBits_bits pp st hc hs hsd f _ ho hl]

theorem initEvents_no_rise (pp st : PinPair) (f : PinFile) : sampledBits st f (initEvents pp) = [] := by
  apply sampledBits_no_rise; simp [initEvents]

theorem length_bits (bytes : List Byte) : (bytes.flatMap byteBits).length = 8 * bytes.length := by
  induction bytes with
  | nil => rfl
  | cons b bytes ih => simp [List.flatMap_cons, ih, length_byteBits]; omega

theorem clockEdges_append (c : Pin) (f : PinFile) (a b : List Event) :
    clockEdges c f (a ++ b) = clockEdges c f a + clockEdges c (a.foldl PinFile.apply f) b := by
  induction a generalizing f with
  | nil => simp [clockEdges]
  | cons e a ih => simp only [List.cons_append, clockEdges, List.foldl_cons, ih]; omega

theorem groupBytes_append (a b : List Wire) (n : Nat) (h : a.length = 8 * n) :
    groupBytes (a ++ b) = groupBytes a ++ groupBytes b := by
  induction n generalizing a with
  | zero => simp at h; subst h; rfl
  | succ n ih =>
    match a, h with
    | x0 :: x1 :: x2 :: x3 :: x4 :: x5 :: x6 :: x7 :: rest, h =>
      simp only [List.cons_append, groupBytes, List.cons.injEq, true_and]
      exact ih rest (by simp at h; omega)

theorem byteOfBits_byteBits (v : Byte) : byteOfBits ((byteBits v).map Wire.driven) = some v := by
  revert v; decide

end Sys2Proof.Machine
end

