-- ==== Sys2Proof/Machine/AsmText.lean ====
section
/-!
DEFINITION. The text of the assembler (30_encoding.md R100, R101): one line of text, as a list of characters, to the syntax
it spells.  A line that spells none of the forms is no syntax at all (log entry 19).
-/

namespace Sys2Proof.Machine

/-- The pieces of a line: a mnemonic or a number, and the marks of R100's table. -/
inductive AsmToken
  | word (chars : List Char)
  | comma
  | openBrace
  | closeBrace
deriving DecidableEq, Repr

/-- The characters of a word that end at a mark, a space or the end of the line, before the tokens that follow. -/
def endWord (chars : List Char) (rest : List AsmToken) : List AsmToken :=
  if chars.isEmpty then rest else .word chars.reverse :: rest

/-- The mark that a character is, if it is one; characters 123 and 125 are the braces. -/
def markOf (c : Char) : Option AsmToken :=
  if c = ',' then some .comma
  else if c.toNat = 123 then some .openBrace
  else if c.toNat = 125 then some .closeBrace
  else none

/-- The tokens of a line.  Spaces separate, and a semicolon starts a comment, as in 95_test_vectors.md 3. -/
def asmTokens : List Char → List Char → List AsmToken
  | [], chars => endWord chars []
  | c :: line, chars =>
    if c = ';' then endWord chars []
    else if c = ' ' ∨ c = '\t' then endWord chars (asmTokens line [])
    else match markOf c with
      | some mark => endWord chars (mark :: asmTokens line [])
      | none => asmTokens line (c :: chars)

/-- The value of a digit, hexadecimal digits in either case. -/
def digitOf (c : Char) : Option Nat :=
  if '0'.toNat ≤ c.toNat ∧ c.toNat ≤ '9'.toNat then some (c.toNat - '0'.toNat)
  else if 'a'.toNat ≤ c.toNat ∧ c.toNat ≤ 'f'.toNat then some (c.toNat - 'a'.toNat + 10)
  else if 'A'.toNat ≤ c.toNat ∧ c.toNat ≤ 'F'.toNat then some (c.toNat - 'A'.toNat + 10)
  else none

/-- The number that digits in base `b` spell after the digits already read, whose value is `acc`. -/
def digitsFrom (b acc : Nat) : List Char → Option Nat
  | [] => some acc
  | c :: rest =>
    match digitOf c with
    | none => none
    | some d => if d < b then digitsFrom b (acc * b + d) rest else none

/-- A decimal or `0x` hexadecimal number (R100). -/
def naturalOf : List Char → Option Nat
  | [] => none
  | ['0', 'x'] => none
  | '0' :: 'x' :: digits => digitsFrom 16 0 digits
  | digits => digitsFrom 10 0 digits

/-- An integer operand, which may be negative (R86). -/
def integerOf : List Char → Option Int
  | '-' :: digits => (naturalOf digits).map fun n => -(n : Int)
  | digits => (naturalOf digits).map fun n => (n : Int)

/-- A base operand: a 32-bit address (R89). -/
def baseOf (chars : List Char) : Option Addr :=
  (integerOf chars).bind fun v => if 0 ≤ v ∧ v < 2 ^ 32 then some (BitVec.ofInt 32 v) else none

/-- The last operand of SEND_COLOR and WRITE: nothing, or a comma and a brightness (R101). -/
def brightnessTail : List AsmToken → Option (Option Int)
  | [] => some none
  | [.comma, .word br] => (integerOf br).map some
  | _ => none

/-- SEND_COLOR's channels and brightness, in either spelling (R100, R101). -/
def sendColorOperands : List AsmToken → Option AsmCmd
  | .openBrace :: .word r :: .comma :: .word g :: .comma :: .word b :: .closeBrace :: rest =>
    (integerOf r).bind fun r => (integerOf g).bind fun g => (integerOf b).bind fun b =>
      (brightnessTail rest).map fun br => .sendColorTriple (r, g, b) br
  | .word r :: .comma :: .word g :: .comma :: .word b :: rest =>
    (integerOf r).bind fun r => (integerOf g).bind fun g => (integerOf b).bind fun b =>
      (brightnessTail rest).map fun br => .sendColor r g b br
  | _ => none

/-- WRITE's operands (R100, R101). -/
def writeOperands : List AsmToken → Option AsmCmd
  | .word base :: .comma :: .word count :: rest =>
    (baseOf base).bind fun base => (integerOf count).bind fun count =>
      (brightnessTail rest).map fun br => .write base count br
  | _ => none

/-- The syntax of a line of tokens (R100, R101: no other form exists). -/
def asmOfTokens : List AsmToken → Option AsmCmd
  | [.word ['S', 'T', 'A', 'R', 'T', '_', 'F', 'R', 'A', 'M', 'E']] => some .startFrame
  | .word ['S', 'E', 'N', 'D', '_', 'C', 'O', 'L', 'O', 'R'] :: operands => sendColorOperands operands
  | [.word ['E', 'N', 'D', '_', 'F', 'R', 'A', 'M', 'E'], .word count] => (integerOf count).map .endFrame
  | .word ['W', 'R', 'I', 'T', 'E'] :: operands => writeOperands operands
  | _ => none

/-- The syntax a line spells, if it spells one. -/
def asmOfText (line : List Char) : Option AsmCmd := asmOfTokens (asmTokens line [])

/-- The command a line denotes, or why its syntax has none (R86, R88, R100, R101). -/
def assembleText (line : List Char) : Option (Except Refusal Instr) := (asmOfText line).map assemble

end Sys2Proof.Machine
end

