-- ==== Sys2Proof/Tests/Slice0.lean ====
section
/-!
SUPPORT. Tests: the well-formedness smoke, words written out from the formats of 30_encoding.md, the vectors of
95_test_vectors.md, and one witness for the hypotheses of each obligation.  Expected values come from spec/ (the vector's
name stands in the docstring), never from the model.
-/

namespace Sys2Proof.Tests

open Sys2Proof Sys2Proof.Machine

/-! ## Well-formedness (30_encoding.md R88, R100; 10_state.md R35) -/

/-- R88: a count above or below the range. -/
theorem test_wellFormed_refuses_counts :
    AsmCmd.wellFormed (.endFrame 65536) = false ∧ AsmCmd.wellFormed (.endFrame (-1)) = false ∧
    AsmCmd.wellFormed (.write 0x1000#32 65536 none) = false ∧ AsmCmd.wellFormed (.write 0x1000#32 (-1) none) = false := by
  decide

/-- R100: each channel, in both spellings. -/
theorem test_wellFormed_refuses_channels :
    AsmCmd.wellFormed (.sendColor 256 0 0 none) = false ∧ AsmCmd.wellFormed (.sendColor 0 (-1) 0 none) = false ∧
    AsmCmd.wellFormed (.sendColor 0 0 256 none) = false ∧ AsmCmd.wellFormed (.sendColorTriple (256, 0, 0) none) = false ∧
    AsmCmd.wellFormed (.sendColorTriple (0, 256, 0) none) = false ∧
    AsmCmd.wellFormed (.sendColorTriple (0, 0, -1) none) = false := by decide

/-- The ends of the ranges are well formed; a brightness outside its range is masked, not refused (R86). -/
theorem test_wellFormed_accepts :
    AsmCmd.wellFormed (.endFrame 0) = true ∧ AsmCmd.wellFormed (.endFrame 65535) = true ∧
    AsmCmd.wellFormed (.sendColor 0 255 0 (some 999)) = true ∧
    AsmCmd.wellFormed (.write 0xFFFFFFFF#32 65535 (some (-1))) = true := by decide

/-- R35: an instance with one pin twice, a data pin shared by two, a data pin that is another's clock; D23: no instance. -/
theorem test_pinMap_refused :
    pinMapOk { bindings := [], readable := [] } = false ∧ pinMapOk { bindings := [⟨0, 0⟩], readable := [] } = false ∧ pinMapOk { bindings := [⟨0, 1⟩, ⟨2, 1⟩], readable := [] } = false ∧
    pinMapOk { bindings := [⟨0, 1⟩, ⟨2, 0⟩], readable := [] } = false ∧
    pinMapOk { bindings := [⟨0, 1⟩, ⟨1, 2⟩], readable := [] } = false := by decide

/-- R35: two instances may share a clock pin. -/
theorem test_pinMap_shared_clock : pinMapOk { bindings := [⟨0, 1⟩, ⟨0, 2⟩], readable := [] } = true := by decide

/-! ## Decoding: words written out bit by bit (30_encoding.md R92 to R95, R97; 95_test_vectors.md 2.5) -/

theorem test_decode_startFrame : decode 0b00100000000000000000000000000000#32 none = .ok (.startFrame, 1) := by decide

/-- `010 11111 00000001 00000010 00000011`: brightness, red, green, blue. -/
theorem test_decode_sendColor :
    decode 0b01011111000000010000001000000011#32 none = .ok (.sendColor 1#8 2#8 3#8 31#5, 1) ∧
    decode 0x48123456#32 none = .ok (.sendColor 0x12#8 0x34#8 0x56#8 8#5, 1) := by decide

/-- `011 0000000000000 count`. -/
theorem test_decode_endFrame :
    decode 0b01100000000000001111111111111110#32 none = .ok (.endFrame 0xFFFE#16, 1) := by decide

/-- `100 br 00000000 count`, then the base. -/
theorem test_decode_write :
    decode 0b10010101000000001000000000000001#32 (some 0xE0001000#32) =
      .ok (.write 0xE0001000#32 0x8001#16 0b10101#5, 2) := by decide

theorem test_decode_reserved : [0x20000001#32, 0x3FFFFFFF#32, 0x60010000#32, 0x7FFFFFFF#32, 0x80010000#32, 0x00000000#32,
    0x1FFFFFFF#32, 0xA0000000#32, 0xC0000000#32, 0xE0000000#32].map (fun w => decode w (some 0x00001000#32)) =
    List.replicate 10 (.error .reservedEncoding) := by decide +kernel

theorem test_decode_truncated : decode 0x9F000001#32 none = .error .truncated := by decide

theorem test_encode : encode (.sendColor 1#8 2#8 3#8 31#5) = [0x5F010203#32] ∧ encode (.endFrame 2#16) = [0x60000002#32] ∧
    encode (.write 0x2000#32 17#16 5#5) = [0x85000011#32, 0x00002000#32] := by decide

theorem test_decodeTableWord :
    decodeTableWord 32 0x20000000 = some .startFrame ∧
    decodeTableWord 64 0x000010009F000001 = some (.write 0x1000#32 1#16 31#5) ∧
    decodeTableWord 32 0x9F000001 = some (.write 0#32 1#16 31#5) ∧ decodeTableWord 32 0xE0000000 = none := by decide

/-! ## The text of the assembler (30_encoding.md R100, R101; 95_test_vectors.md 2.2, 3) -/

/-- `SEND_COLOR 0xFF, 0x80, 0x00, 1` (SC5) and `SEND_COLOR <1, 2, 3>` with braces (SC2, omitted brightness). -/
theorem test_text_sendColor :
    assembleText ['S', 'E', 'N', 'D', '_', 'C', 'O', 'L', 'O', 'R', ' ', '0', 'x', 'F', 'F', ',', ' ', '0', 'x', '8', '0', ',',
      ' ', '0', 'x', '0', '0', ',', ' ', '1'] = some (.ok (.sendColor 0xFF#8 0x80#8 0x00#8 1#5)) ∧
    assembleText (['S', 'E', 'N', 'D', '_', 'C', 'O', 'L', 'O', 'R', ' '] ++ [Char.ofNat 123] ++
      ['1', ',', ' ', '2', ',', ' ', '3'] ++ [Char.ofNat 125]) = some (.ok (.sendColor 1#8 2#8 3#8 31#5)) := by decide +kernel

/-- `WRITE 0x1000, 0 ; x` and `END_FRAME 65536`, which is refused; a line that is no command. -/
theorem test_text_write_endFrame :
    assembleText ['W', 'R', 'I', 'T', 'E', ' ', '0', 'x', '1', '0', '0', '0', ',', ' ', '0', ' ', ';', ' ', 'x'] =
      some (.ok (.write 0x1000#32 0#16 31#5)) ∧
    assembleText ['E', 'N', 'D', '_', 'F', 'R', 'A', 'M', 'E', ' ', '6', '5', '5', '3', '6'] = some (.error .countRange) ∧
    asmOfText ['I', 'N', 'I', 'T'] = none := by decide +kernel

/-! ## Operands -/

/-- 95_test_vectors.md 2.2: the brightness given at the syntax and the header byte. -/
theorem test_brightness_header : ∀ e ∈ [(0, 0xE0#8), (1, 0xE1#8), (15, 0xEF#8), (16, 0xF0#8), (30, 0xFE#8), (31, 0xFF#8),
    (32, 0xE0#8), (33, 0xE1#8), (63, 0xFF#8), (255, 0xFF#8), (-1, 0xFF#8), (-32, 0xE0#8), (-33, 0xFF#8)],
    headerByte (brightnessOperand (some e.1)) = e.2 := by decide

/-- 95_test_vectors.md 2.3: zero bytes of the end frame and bytes of the frame. -/
theorem test_end_frame_arithmetic : ∀ e ∈ [(0, 5, 10), (1, 5, 14), (15, 5, 70), (16, 6, 75), (17, 6, 79), (31, 6, 135),
    (32, 7, 140), (33, 7, 144), (255, 20, 1045), (256, 21, 1050), (1000, 67, 4072), (4095, 260, 16645),
    (65535, 4100, 266245)],
    endZeros (BitVec.ofNat 16 e.1) = e.2.1 ∧ frameLength (BitVec.ofNat 16 e.1) = e.2.2 := by decide

/-! ## A small machine -/

/-- Two strips on one clock pin (95_test_vectors.md P5). -/
def strip0 : PinPair := ⟨0, 1⟩
def strip1 : PinPair := ⟨0, 2⟩
def config : HwConfig := { bindings := [strip0, strip1], readable := [⟨0, Config.memSize⟩] }
/-- The same, but the platform does not admit a read of `0x1004` (95_test_vectors.md W5). -/
def holeConfig : HwConfig := { config with readable := [⟨0x1000, 4⟩, ⟨0x1005, 1⟩] }
def mem : List Host.Cell := [(0x1000, 1#8), (0x1001, 2#8), (0x1002, 3#8), (0x1003, 10#8), (0x1004, 11#8), (0x1005, 12#8)]
/-- The words of START_FRAME, SEND_COLOR, END_FRAME and WRITE on instance 0. -/
def words : Program := .words [⟨0, 0x20000000#32⟩, ⟨0, 0x5F010203#32⟩, ⟨0, 0x60000001#32⟩, ⟨0, 0x9F000001#32⟩, ⟨0, 0x1000#32⟩]

def demo : State := .start config mem words .concrete
/-- After START_FRAME on instance 0. -/
def streaming : State := completed .startFrame strip0 demo
/-- After a WRITE on instance 1: strip 1's lines are driven low; the next command is for instance 0. -/
def written1 : State := (completed (.write 0x1003#32 1#16 31#5) strip1 (demo.setPort 1)).setPort 0
/-- `demo` under a program of one WRITE whose second colour cannot be read. -/
def hole : State := .start holeConfig mem (.words [⟨0, 0x9F000002#32⟩, ⟨0, 0x1000#32⟩]) .concrete
/-- Where that WRITE leaves the machine: byte 1 of colour 1 is not admitted. -/
def stuck : State := stuckState 0x1000#32 2#16 31#5 strip0 hole 1 1
def capability : State := { demo with interface := .capability }
/-- `demo` with a START_FRAME accepted and none of its events emitted yet. -/
def busy : State := demo.accept .startFrame strip0
def records : State := { demo with program := .records [⟨0, .endFrame 1⟩, ⟨0, .endFrame 65536⟩] }
def badPins : State := { demo with config := { bindings := [⟨0, 0⟩], readable := [] } }

theorem demo_accepts : Accepts demo strip0 := ⟨by decide, by decide, by decide⟩
theorem streaming_accepts : Accepts streaming strip0 := completed_accepts _ _ _ demo_accepts
theorem capability_accepts : Accepts capability strip0 := ⟨by decide, by decide, by decide⟩
theorem hole_accepts : Accepts hole strip0 := ⟨by decide, by decide, by decide⟩
theorem records_accepts : Accepts records strip0 := ⟨by decide, by decide, by decide⟩
theorem demo_steps : Steps demo := ⟨by decide, by decide⟩
theorem busy_steps : Steps busy := ⟨by decide, by decide⟩

theorem admitted_of_config {s : State} {base : Addr} {count : Count} (hc : s.config = config)
    (h : base.toNat + 3 * count.toNat ≤ 2 ^ 32) : arrayAdmitted s base count := by
  intro i j hi hj
  have hlt : colourAddr base i j < Config.memSize := by unfold colourAddr; unfold Config.memSize; omega
  simp [admits, hc, config, hlt]

theorem demo_start : exec .startFrame demo = .next streaming := exec_completes demo_accepts rfl
theorem demo_write : ∃ t, exec (.write 0x1000#32 1#16 31#5) demo = .next t :=
  ⟨_, exec_completes demo_accepts ⟨by decide, admitted_of_config rfl (by decide)⟩⟩
theorem streaming_send (r g b : Byte) (br : Brightness) : ∃ t, exec (.sendColor r g b br) streaming = .next t :=
  ⟨_, exec_completes streaming_accepts rfl⟩
theorem streaming_end (count : Count) : ∃ t, exec (.endFrame count) streaming = .next t :=
  ⟨_, exec_completes streaming_accepts rfl⟩
theorem demo_step : step demo = .next streaming := demo_start

theorem streaming_pins : streaming.pins = { oe := [(0, true), (1, true)], q := [(0, false), (1, false)] } := by
  decide +kernel

theorem written1_pins : written1.pins = { oe := [(0, true), (2, true)], q := [(0, false), (2, false)] } := by
  decide +kernel

/-- The invariant of a machine whose pins and ghost table are the given literals. -/
theorem demo_inv : Inv demo where
  mem := by decide
  idle := rfl
  cpc := Nat.zero_le _
  oe := by decide
  q := by decide
  ghost := by decide
  ghostKeys := by decide
  replay := rfl
  written := fun p h => by cases h
  clkLow := fun pp _ h => by cases h
  bothOut := fun pp _ h => by cases h
  idleLow := fun _ k pp _ _ h => by cases h
  streamingOut := fun k pp _ h => by cases h

/-- The configuration's bindings, one by one. -/
theorem binding_cases {P : Nat → PinPair → Prop} (h0 : P 0 strip0) (h1 : P 1 strip1) :
    ∀ k pp, config.bindings[k]? = some pp → P k pp := by
  intro k pp h
  match k with
  | 0 => cases h; exact h0
  | 1 => cases h; exact h1
  | _ + 2 => cases h

theorem binding_mem {P : PinPair → Prop} (h0 : P strip0) (h1 : P strip1) : ∀ pp ∈ config.bindings, P pp := by
  intro pp h
  rcases List.mem_cons.1 h with h | h
  · subst h; exact h0
  · rcases List.mem_cons.1 h with h | h
    · subst h; exact h1
    · cases h

theorem streaming_inv : Inv streaming where
  mem := demo_inv.mem
  idle := rfl
  cpc := by decide
  oe := by rw [streaming_pins]; decide
  q := by rw [streaming_pins]; decide
  ghost := by decide
  ghostKeys := by decide
  replay := by decide +kernel
  written := fun p h => by
    rw [streaming_pins] at *
    simp only [PinFile.oeBit, load, find?] at h ⊢
    by_cases h0 : 0 = p
    · simp [h0]
    · by_cases h1 : 1 = p
      · simp [h0, h1]
      · simp [h0, h1] at h
  clkLow := by rw [streaming_pins]; exact binding_mem (by decide) (by decide)
  bothOut := by rw [streaming_pins]; exact binding_mem (by decide) (by decide)
  idleLow := fun _ => by rw [streaming_pins]; exact binding_cases (fun _ => by decide) (fun _ => by decide)
  streamingOut := by
    rw [streaming_pins]; exact binding_cases (fun _ => by decide) (fun h => absurd h (by decide))

theorem written1_inv : Inv written1 where
  mem := by decide
  idle := rfl
  cpc := by decide +kernel
  oe := by rw [written1_pins]; decide
  q := by rw [written1_pins]; decide
  ghost := by decide
  ghostKeys := by decide
  replay := by decide +kernel
  written := fun p h => by
    rw [written1_pins] at *
    simp only [PinFile.oeBit, load, find?] at h ⊢
    by_cases h0 : 0 = p
    · simp [h0]
    · by_cases h1 : 2 = p
      · simp [h0, h1]
      · simp [h0, h1] at h
  clkLow := by rw [written1_pins]; exact binding_mem (by decide) (by decide)
  bothOut := by rw [written1_pins]; exact binding_mem (by decide) (by decide)
  idleLow := fun _ => by rw [written1_pins]; exact binding_cases (fun _ => by decide) (fun _ => by decide)
  streamingOut := by
    rw [written1_pins]
    exact binding_cases (fun h => absurd h (by decide)) (fun h => absurd h (by decide))

theorem hole_stuckRead : StuckRead hole 0x1000#32 2#16 1 1 where
  led := by decide
  byte := by decide
  bad := by decide
  ok := fun m' j' h => by
    have : (m' = 0 ∧ (j' = 0 ∨ j' = 1 ∨ j' = 2)) ∨ (m' = 1 ∧ j' = 0) := by omega
    rcases this with ⟨rfl, rfl | rfl | rfl⟩ | ⟨rfl, rfl⟩ <;> decide

theorem hole_write : exec (.write 0x1000#32 2#16 31#5) hole = .fault (.memNotAdmitted 0x1004 stuck) :=
  exec_write_stuck hole_accepts (by decide) hole_stuckRead

theorem hole_step : step hole = .fault (.memNotAdmitted 0x1004 stuck) := hole_write

/-! ## One step of each command (95_test_vectors.md) -/

/-- What a test looks at in a next state. -/
def nextView {α : Type} (view : State → α) : Host.Outcome State Fault Refusal → Option α
  | .next t => some (view t)
  | .fault _ => none
  | .refused _ => none

/-- What a test looks at in a stuck state. -/
def stuckView {α : Type} (view : State → α) : Host.Outcome State Fault Refusal → Option (Nat × α)
  | .next _ => none
  | .fault (.memNotAdmitted a t) => some (a, view t)
  | .fault .runEnded => none
  | .refused _ => none

/-- T1: INIT from reset. -/
theorem test_init : (demo.init strip0).trace = [.set 1 false, .cfg 1, .set 0 false, .cfg 0] ∧
    (demo.init strip0).pins = { oe := [(0, true), (1, true)], q := [(0, false), (1, false)] } ∧
    (demo.init strip0).bitStream strip0 = [] := by decide

/-- T2: TRANSFER(0xA5) after INIT. -/
theorem test_transfer : ((demo.init strip0).transferAll strip0 [0xA5#8]).byteStream strip0 = [some 0xA5#8] ∧
    ((demo.init strip0).transferAll strip0 [0xA5#8]).pins.q = [(0, false), (1, true)] := by decide +kernel

/-- T7: TRANSFER(0xFF) with no INIT: the latches change, nothing is driven and no bit is sampled. -/
theorem test_transfer_undriven : (demo.transferAll strip0 [0xFF#8]).bitStream strip0 = [] ∧
    (demo.transferAll strip0 [0xFF#8]).trace.length = 24 ∧
    (demo.transferAll strip0 [0xFF#8]).pins = { oe := [], q := [(0, false), (1, true)] } := by decide +kernel

/-- START_FRAME from reset (R130): 100 events, four zero bytes, STREAMING with nothing sent. -/
theorem test_startFrame : nextView (fun t => (t.trace.length, t.byteStream strip0, t.ghostOf 0, t.misuse)) (step demo) =
    some (100, [some 0#8, some 0#8, some 0#8, some 0#8], ⟨.streaming, 0⟩, false) := by decide +kernel

/-- P5: strip 1, on the same clock and with its data line not driven, samples an undefined bit at each edge. -/
theorem test_startFrame_shared_clock : nextView (fun t => t.bitStream strip1) (step demo) = some (List.replicate 32 .z) := by
  decide +kernel

/-- T1, as waveforms: over INIT's four events both lines go from not driven to 0, the data line first. -/
theorem test_init_waveforms : (demo.init strip0).observeRun.waves =
    [(0, [.z, .z, .z, .z, .driven false]), (1, [.z, .z, .driven false, .driven false, .driven false]),
     (2, [.z, .z, .z, .z, .z])] := by decide +kernel

/-- An empty run on a pin map that is not well formed is refused, and is no final end (R176). -/
theorem test_empty_run_on_bad_pins : ({ badPins with program := .words [] } : State).final = false ∧
    step { badPins with program := .words [] } = .refused .badPinMap := ⟨by decide, rfl⟩

/-- SC1 after START_FRAME. -/
theorem test_sendColor : nextView (fun t => (t.trace.length, (t.byteStream strip0).drop 4, find? 1 t.pins.q, t.ghostOf 0, t.cpc))
    (step streaming) =
    some (196, [some 0xFF#8, some 3#8, some 2#8, some 1#8], some true, ⟨.streaming, 1⟩, 2) := by decide +kernel

/-- P4, command 1: SEND_COLOR from reset emits 96 events, drives nothing and is a misuse. -/
theorem test_sendColor_from_reset :
    nextView (fun t => (t.trace.length, t.bitStream strip0, t.pins, t.misuse)) (exec (.sendColor 1#8 2#8 3#8 0#5) demo) =
    some (96, [], { oe := [], q := [(0, false), (1, true)] }, true) := by decide +kernel

/-- 2.3, count 16: 168 events, `FF` and 6 zero bytes. -/
theorem test_endFrame : nextView (fun t => (t.trace.length, (t.byteStream strip0).drop 4)) (exec (.endFrame 16#16) streaming) =
    some (268, some 0xFF#8 :: List.replicate 6 (some 0#8)) := by decide +kernel

/-- G4: END_FRAME 0 with nothing sent is a misuse; the instance is IDLE after it. -/
theorem test_endFrame_misuse : nextView (fun t => (t.misuse, t.ghostOf 0)) (exec (.endFrame 0#16) streaming) =
    some (true, ⟨.idle, 0⟩) := by decide +kernel

/-- W1, P1: `00 00 00 00 FF 03 02 01 FF 00 00 00 00 00`, 340 events, `cpc` moves by 2. -/
theorem test_write : nextView (fun t => (t.trace.length, t.byteStream strip0, t.misuse, t.cpc))
    (exec (.write 0x1000#32 1#16 31#5) demo) =
    some (340, [0, 0, 0, 0, 0xFF, 3, 2, 1, 0xFF, 0, 0, 0, 0, 0].map (fun n => some (BitVec.ofNat 8 n)), false, 2) := by
  decide +kernel

/-- W5: stuck at the read of `0x1004` after 196 events; later commands find the instance stuck. -/
theorem test_write_stuck : stuckView (fun t => (t.trace.length, t.cpc, t.stuckAt)) (step hole) =
    some (0x1004, 196, 0, some 0x1004) ∧ stuck.tick = none := by decide +kernel

/-- The first step after reset runs the instruction that `withFetchWord` places. -/
theorem test_withFetchWord :
    nextView (fun t => (t.trace.length, t.cpc)) (step (State.reset.withFetchWord 32 0x20000000)) = some (100, 1) ∧
    nextView (fun t => (t.trace.length, t.cpc)) (step (State.reset.withFetchWord 32 0x9F000000)) = some (244, 2) := by
  decide +kernel

/-- P2's command 1, event by event: the whole command after 100 actions. -/
theorem test_ticks : (State.ticks 100 busy).map (fun t => (t.trace.length, t.seq, t.cpc)) = some (100, none, 1) := by
  decide +kernel

/-! ## Witnesses: for each obligation with hypotheses, a state and operands that meet all of them, for each clause -/

theorem witness_DecodeOfEncodeIsTheCommand :
    encode .startFrame ++ [] = 0x20000000#32 :: [] ∧
    encode (.sendColor 255#8 255#8 255#8 31#5) ++ [7#32] = 0x5FFFFFFF#32 :: [7#32] ∧
    encode (.endFrame 65535#16) ++ [] = 0x6000FFFF#32 :: [] ∧
    encode (.write 0xFFFFFFFF#32 0#16 0#5) ++ [7#32] = 0x80000000#32 :: [0xFFFFFFFF#32, 7#32] := by decide

theorem witness_EncodeOfDecodeIsTheWords :
    decode 0x5FFFFFFF#32 none = .ok (.sendColor 255#8 255#8 255#8 31#5, 1) ∧
    decode 0x80000000#32 (some 0x1000#32) = .ok (.write 0x1000#32 0#16 0#5, 2) := by decide

/-- A stream whose first word has the reserved operation 7. -/
def reserved : State := { demo with program := .words [⟨0, 0xE0000000#32⟩] }
/-- A stream that ends after a WRITE's first word. -/
def truncated : State := { demo with program := .words [⟨0, 0x9F000001#32⟩] }

/-- A word that is reserved and one that is not. -/
theorem witness_ReservedEncodingsAreRefused :
    (Steps reserved ∧ reserved.program = .words [⟨0, 0xE0000000#32⟩] ∧
      [(⟨0, 0xE0000000#32⟩ : PortWord)][reserved.cpc]? = some ⟨0, 0xE0000000#32⟩ ∧ ReservedWord 0xE0000000#32) ∧
    (Steps truncated ∧ truncated.program = .words [⟨0, 0x9F000001#32⟩] ∧
      [(⟨0, 0x9F000001#32⟩ : PortWord)][truncated.cpc]? = some ⟨0, 0x9F000001#32⟩ ∧ ¬ ReservedWord 0x9F000001#32) :=
  ⟨⟨⟨by decide, by decide⟩, rfl, rfl, .inl (by decide)⟩, ⟨by decide, by decide⟩, rfl, rfl, by unfold ReservedWord; decide⟩

/-- Each clause: a word that decodes, a WRITE word, a word that is not a WRITE, a truncated stream. -/
theorem witness_LengthDecoding :
    decode 0x20000000#32 none = .ok (.startFrame, 1) ∧
    (0x9F000001#32).toNat / 2 ^ 29 = 4 ∧ (0x9F000001#32).toNat / 2 ^ 16 % 2 ^ 8 = 0 ∧ (0x6000FFFF#32).toNat / 2 ^ 29 ≠ 4 ∧
    Steps truncated ∧ truncated.program = .words [⟨0, 0x9F000001#32⟩] ∧ truncated.cpc + 1 = [(⟨0, 0x9F000001#32⟩ : PortWord)].length :=
  ⟨by decide, by decide, by decide, by decide, ⟨by decide, by decide⟩, rfl, rfl⟩

theorem witness_StepRunsTheDecodedCommand :
    Steps demo ∧ ∃ ws w, demo.program = .words ws ∧ ws[demo.cpc]? = some w ∧
      decode w.word (secondWord ws demo.cpc w) = .ok (.startFrame, 1) :=
  ⟨demo_steps, _, _, rfl, rfl, by decide⟩

/-- A record that assembles and one that does not. -/
theorem witness_StepRunsTheRecordedCommand :
    Steps records ∧ records.program = .records [⟨0, .endFrame 1⟩, ⟨0, .endFrame 65536⟩] ∧
    assemble (.endFrame 1) = .ok (.endFrame 1#16) ∧ assemble (.endFrame 65536) = .error .countRange :=
  ⟨⟨by decide, by decide⟩, rfl, by decide, by decide⟩

theorem witness_BrightnessIsMasked :
    assemble (.sendColor 0 255 0 (some (-1))) = .ok (.sendColor 0#8 255#8 0#8 31#5) ∧
    assemble (.sendColor 0 255 0 none) = .ok (.sendColor 0#8 255#8 0#8 31#5) ∧
    assemble (.write 0#32 65535 (some 32)) = .ok (.write 0#32 65535#16 0#5) ∧
    assemble (.write 0#32 0 none) = .ok (.write 0#32 0#16 31#5) := by decide

/-- Both ends of the range, and one step past each. -/
theorem witness_CountIsRangeChecked :
    assemble (.endFrame 65536) = .error .countRange ∧ assemble (.endFrame (-1)) = .error .countRange ∧
    assemble (.write 0#32 65536 none) = .error .countRange ∧
    assemble (.endFrame 0) = .ok (.endFrame 0#16) ∧ assemble (.endFrame 65535) = .ok (.endFrame 65535#16) := by decide

/-- Each channel at each end of the range, and one step past it. -/
theorem witness_ChannelsAreRangeChecked :
    (0 ≤ (0 : Int) ∧ (0 : Int) ≤ 255) ∧ (0 ≤ (255 : Int) ∧ (255 : Int) ≤ 255) ∧
    assemble (.sendColor 256 0 0 none) = .error .channelRange ∧ assemble (.sendColor 0 0 (-1) none) = .error .channelRange ∧
    assemble (.sendColorTriple (0, 255, 1) none) = .ok (.sendColor 0#8 255#8 1#8 31#5) := by decide

/-- Both kinds of event. -/
theorem witness_EmitWritesOneBitOfOnePin : (∃ p, Event.cfg 1 = .cfg p) ∧ ∃ p l, Event.set 0 true = .set p l :=
  ⟨⟨_, rfl⟩, _, _, rfl⟩

theorem witness_OutputsStayOutputs : (∃ t, step streaming = .next t) ∧ streaming.pins.oeBit 0 = true :=
  ⟨streaming_send 1#8 2#8 3#8 31#5, by rw [streaming_pins]; decide⟩

theorem witness_WireIsTheLatchOfADrivenPin : streaming.pins.oeBit 0 = true ∧ streaming.pins.oeBit 2 = false := by
  rw [streaming_pins]; decide

theorem witness_InitDrivesBothLinesLow :
    streaming.pins.oeBit strip0.clk = true ∧ streaming.pins.latch strip0.clk = false ∧ 2 ≠ strip0.clk ∧ 2 ≠ strip0.data := by
  rw [streaming_pins]; decide

theorem witness_InitMakesNoRisingEdge : PinFile.initial.wire strip0.clk ≠ .driven true ∧
    (((initEvents strip0).take 3).foldl PinFile.apply streaming.pins).wire strip0.clk = .driven false := by
  rw [streaming_pins]; decide

theorem witness_TransferSendsEightBits :
    strip0.clk ≠ strip0.data ∧ streaming.pins.wire 2 = .z ∧ 2 ≠ strip0.clk ∧ 2 ≠ strip0.data := by
  rw [streaming_pins]; decide

/-- INIT's own write of the data line, in a START_FRAME. -/
theorem witness_DataIsSetOnlyWhileTheClockIsLow :
    Inv demo ∧ exec .startFrame demo = .next streaming ∧ demo.config.bindings[demo.port]? = some strip0 ∧
    ∃ after, streaming.trace = demo.trace ++ [] ++ .set strip0.data false :: after :=
  ⟨demo_inv, demo_start, rfl, _, rfl⟩

/-- A command that runs INIT, and one that does not, on pins that are outputs. -/
theorem witness_CommandAddsExactlyItsBytes :
    (Inv demo ∧ exec .startFrame demo = .next streaming ∧ demo.config.bindings[demo.port]? = some strip0 ∧
      runsInit .startFrame = true) ∧
    (Inv streaming ∧ (∃ t, exec (.sendColor 1#8 2#8 3#8 31#5) streaming = .next t) ∧
      streaming.config.bindings[streaming.port]? = some strip0 ∧
      streaming.pins.oeBit strip0.clk = true ∧ streaming.pins.oeBit strip0.data = true) :=
  ⟨⟨demo_inv, demo_start, rfl, rfl⟩, streaming_inv, streaming_send _ _ _ _, rfl,
    by rw [streaming_pins]; decide, by rw [streaming_pins]; decide⟩

/-- Both strips: the one addressed and the one that shares its clock. -/
theorem witness_StepKeepsEveryStripByteAligned :
    Inv demo ∧ strip0 ∈ demo.config.bindings ∧ strip1 ∈ demo.config.bindings ∧ step demo = .next streaming :=
  ⟨demo_inv, by decide, by decide, demo_step⟩

theorem witness_NothingIsDrivenBeforeInit :
    (.cfg strip0.clk ∉ transferEvents strip0 0xA5#8 ∧ .cfg strip0.data ∉ transferEvents strip0 0xA5#8) ∧
    (∃ t, exec (.sendColor 1#8 2#8 3#8 31#5) streaming = .next t ∧ .cfg 0 ∈ t.trace) ∧
    runsInit (.sendColor 1#8 2#8 3#8 31#5) = false :=
  ⟨by decide, ⟨_, exec_completes streaming_accepts rfl, by decide +kernel⟩, rfl⟩

theorem witness_StartFrameResult : Accepts demo strip0 ∧ demo.interface = .concrete := ⟨demo_accepts, rfl⟩

theorem witness_SendColorResult : Accepts streaming strip0 ∧ streaming.interface = .concrete := ⟨streaming_accepts, rfl⟩

theorem witness_EndFrameResult : Accepts streaming strip0 ∧ streaming.interface = .concrete := ⟨streaming_accepts, rfl⟩

/-- Each clause: an array past the top of memory, one that cannot be read, one that can (through the capability interface and
at the very top of memory), and a count of 0. -/
theorem witness_WriteResult :
    (Accepts demo strip0 ∧ 1 ≤ (1#16).toNat ∧ (0xFFFFFFFE#32).toNat + 3 * (1#16).toNat - 1 > 2 ^ 32 - 1) ∧
    (Accepts hole strip0 ∧ (0x1000#32).toNat + 3 * (2#16).toNat - 1 ≤ 2 ^ 32 - 1 ∧
      1 < (2#16).toNat ∧ admits hole.config ((0x1000#32).toNat + 3 * 1 + 1) = false ∧
      ∀ a, (0x1000#32).toNat ≤ a → a < (0x1000#32).toNat + 3 * 1 + 1 → admits hole.config a = true) ∧
    (Accepts capability strip0 ∧ (0xFFFFFFFD#32).toNat + 3 * (1#16).toNat - 1 ≤ 2 ^ 32 - 1 ∧
      ∀ i j, i < (1#16).toNat → j < 3 → admits capability.config ((0xFFFFFFFD#32).toNat + 3 * i + j) = true) ∧
    (Accepts demo strip0 ∧ (0#16).toNat = 0 ∧
      ∀ i j, i < (0#16).toNat → j < 3 → admits demo.config ((0xFFFFFFFF#32).toNat + 3 * i + j) = true) :=
  ⟨⟨demo_accepts, by decide, by decide⟩, ⟨hole_accepts, by decide, by decide, by decide, fun a h1 h2 => by
      have e : (0x1000#32).toNat = 4096 := rfl
      have hlt : a < Config.memSize := by unfold Config.memSize; omega
      have h3 : a < 4100 := by omega
      have h4 : 4096 ≤ a := by omega
      simp [admits, hole, State.start, holeConfig, hlt, h3, h4]⟩,
    ⟨capability_accepts, by decide, fun i j hi hj =>
      admitted_of_config (s := capability) (base := 0xFFFFFFFD#32) (count := 1#16) rfl (by decide) i j hi hj⟩,
    demo_accepts, rfl, fun i j hi => absurd hi (by simp)⟩

theorem witness_CommandsKeepTheFrame :
    exec .startFrame demo = .next streaming ∧ runsInit (.endFrame 1#16) = false ∧
    ∃ t, exec (.endFrame 1#16) streaming = .next t := ⟨demo_start, rfl, streaming_end _⟩

/-- Each command completes. -/
theorem witness_LatchesAfterACommand :
    demo.config.bindings[demo.port]? = some strip0 ∧ streaming.config.bindings[streaming.port]? = some strip0 ∧
    (∃ t, exec .startFrame demo = .next t) ∧ (∃ t, exec (.sendColor 1#8 2#8 3#8 31#5) streaming = .next t) ∧
    (∃ t, exec (.endFrame 1#16) streaming = .next t) ∧ ∃ t, exec (.write 0x1000#32 1#16 31#5) demo = .next t :=
  ⟨rfl, rfl, ⟨_, demo_start⟩, streaming_send _ _ _ _, streaming_end _, demo_write⟩

/-- END_FRAME on pins that are outputs and on pins that are not, WRITE, START_FRAME. -/
theorem witness_LinesAreLeftDrivingLow :
    (∃ t, exec (.endFrame 1#16) streaming = .next t) ∧ streaming.pins.oeBit strip0.clk = true ∧
    streaming.pins.oeBit strip0.data = true ∧ (∃ t, exec (.endFrame 1#16) demo = .next t) ∧ demo.pins.wire strip0.clk = .z ∧
    (∃ t, exec .startFrame demo = .next t) ∧ (∃ t, exec (.write 0x1000#32 1#16 31#5) demo = .next t) ∧
    demo.config.bindings[demo.port]? = some strip0 :=
  ⟨streaming_end _, by rw [streaming_pins]; decide, by rw [streaming_pins]; decide, ⟨_, exec_completes demo_accepts rfl⟩,
    by decide, ⟨_, demo_start⟩, demo_write, rfl⟩

theorem witness_EventCountsOfCommands :
    exec .startFrame demo = .next streaming ∧ ∃ t, exec (.write 0x1000#32 1#16 31#5) demo = .next t :=
  ⟨demo_start, demo_write⟩

theorem witness_EndFrameArithmetic : (List.replicate 15 (⟨1#8, 2#8, 3#8⟩ : Colour)).length = (15#16).toNat := by decide

/-- From reset and after a START_FRAME. -/
theorem witness_EndFrameDependsOnCountAlone :
    (∃ t, exec (.endFrame 15#16) demo = .next t) ∧ (∃ t, exec (.endFrame 15#16) streaming = .next t) ∧
    demo.config.bindings[demo.port]? = some strip0 ∧ streaming.config.bindings[streaming.port]? = some strip0 :=
  ⟨⟨_, exec_completes demo_accepts rfl⟩, streaming_end _, rfl, rfl⟩

theorem witness_EndFrameHasEnoughClockEdges : strip0.clk ≠ strip0.data ∧ LinesReady streaming.pins strip0 :=
  ⟨by decide, by rw [streaming_pins]; exact ⟨by decide, by decide, by decide⟩⟩

/-- The word form and the record form. -/
theorem witness_WriteEqualsTheStreamingCommands :
    (Accepts demo strip0 ∧ demo.interface = .concrete ∧ addrOverflow 0x1000#32 2#16 = false ∧
      arrayAdmitted demo 0x1000#32 2#16 ∧ ∃ ws, demo.program = .words ws) ∧
    (Accepts records strip0 ∧ records.interface = .concrete ∧ arrayAdmitted records 0x1000#32 2#16 ∧
      ∃ rs, records.program = .records rs) :=
  ⟨⟨demo_accepts, rfl, by decide, admitted_of_config rfl (by decide), _, rfl⟩, records_accepts, rfl,
    admitted_of_config rfl (by decide), _, rfl⟩

theorem witness_WriteFrameLayout :
    Inv demo ∧ (∃ t, exec (.write 0x1000#32 1#16 31#5) demo = .next t) ∧ demo.config.bindings[demo.port]? = some strip0 ∧
    (demo.bitStream strip0).length % 8 = 0 := ⟨demo_inv, demo_write, rfl, by decide⟩

/-- W6: the two colours of the array swapped. -/
theorem witness_PermutingColoursPermutesLedWords :
    let swapped : State := { demo with
      mem := [(0x1000, 10#8), (0x1001, 11#8), (0x1002, 12#8), (0x1003, 1#8), (0x1004, 2#8), (0x1005, 3#8)] }
    ((List.range (2#16).toNat).map (fun i => 1 - i)).Perm (List.range (2#16).toNat) ∧ { swapped with mem := demo.mem } = demo ∧
    (∀ i j, i < (2#16).toNat → j < 3 →
      hostByte swapped.mem (colourAddr 0x1000#32 i j) = hostByte demo.mem (colourAddr 0x1000#32 (1 - i) j)) ∧
    demo.config.bindings[demo.port]? = some strip0 ∧
    (∃ t, exec (.write 0x1000#32 2#16 7#5) demo = .next t) ∧ ∃ t, exec (.write 0x1000#32 2#16 7#5) swapped = .next t := by
  refine ⟨by decide, rfl, fun i j hi hj => ?_, rfl,
    ⟨_, exec_completes demo_accepts ⟨by decide, admitted_of_config rfl (by decide)⟩⟩,
    _, exec_completes (pp := strip0) ⟨by decide, by decide, by decide⟩ ⟨by decide, admitted_of_config rfl (by decide)⟩⟩
  have hi' : i = 0 ∨ i = 1 := by have : (2#16).toNat = 2 := rfl; omega
  have hj' : j = 0 ∨ j = 1 ∨ j = 2 := by omega
  rcases hi' with rfl | rfl <;> rcases hj' with rfl | rfl | rfl <;> decide

/-- W3 and W4 (one byte either side of the top), and a count of 0. -/
theorem witness_ArrayPastTheTopIsRefused :
    Accepts demo strip0 ∧ (0xFFFFFFFE#32).toNat + 3 * (1#16).toNat - 1 > 2 ^ 32 - 1 ∧
    ¬ (0xFFFFFFFD#32).toNat + 3 * (1#16).toNat - 1 > 2 ^ 32 - 1 ∧ (0#16).toNat = 0 :=
  ⟨demo_accepts, by decide, by decide, rfl⟩

theorem witness_WriteIsStuckAtAReadNotAdmitted :
    (Accepts hole strip0 ∧ addrOverflow 0x1000#32 2#16 = false ∧ 1 < (2#16).toNat ∧
      admits hole.config (colourAddr 0x1000#32 1 1) = false ∧
      ∀ i j, j < 3 → 3 * i + j < 3 * 1 + 1 → admits hole.config (colourAddr 0x1000#32 i j) = true) ∧
    admits hole.config 0x1003 = true :=
  ⟨⟨hole_accepts, by decide, by decide, by decide, fun i j hj h => hole_stuckRead.ok i j (by omega)⟩, by decide⟩

theorem witness_StuckStaysStuckUntilReset : step hole = .fault (.memNotAdmitted 0x1004 stuck) := hole_step

/-- A memory that differs outside the array. -/
theorem witness_CommandsReadOnlyTheirArray :
    let other : List Host.Cell := [(0x1000, 1#8), (0x1001, 2#8), (0x1002, 3#8), (0x2000, 9#8)]
    (∃ t, exec (.write 0x1000#32 1#16 31#5) demo = .next t) ∧
    ∀ n j, n < (1#16).toNat → j < 3 →
      hostByte other ((0x1000#32).toNat + 3 * n + j) = hostByte demo.mem ((0x1000#32).toNat + 3 * n + j) := by
  refine ⟨demo_write, fun n j hn hj => ?_⟩
  have hn' : n = 0 := by have : (1#16).toNat = 1 := rfl; omega
  have hj' : j = 0 ∨ j = 1 ∨ j = 2 := by omega
  subst hn'; rcases hj' with rfl | rfl | rfl <;> decide

/-- A step that completes, one that gets stuck, and one action of a running command. -/
theorem witness_HostMemoryIsNeverWritten :
    step demo = .next streaming ∧ step hole = .fault (.memNotAdmitted 0x1004 stuck) ∧ ∃ t, busy.tick = some t :=
  ⟨demo_step, hole_step, _, rfl⟩

theorem witness_GhostTransitions :
    (∃ t, exec .startFrame demo = .next t) ∧ (∃ t, exec (.sendColor 1#8 2#8 3#8 31#5) streaming = .next t) ∧
    (∃ t, exec (.endFrame 1#16) streaming = .next t) ∧ (∃ t, exec (.write 0x1000#32 1#16 31#5) demo = .next t) ∧ 1 ≠ demo.port :=
  ⟨⟨_, demo_start⟩, streaming_send _ _ _ _, streaming_end _, demo_write, by decide⟩

/-- A command with no misuse and, for each command, one with it (G5, G2, G4, G6), and G9: the shared clock. -/
theorem witness_MisuseIsSetExactlyByTheContract :
    demo.config.bindings[demo.port]? = some strip0 ∧ streaming.config.bindings[streaming.port]? = some strip0 ∧
    nextView State.misuse (exec .startFrame demo) = some false ∧
    nextView State.misuse (exec .startFrame streaming) = some true ∧
    nextView State.misuse (exec (.sendColor 1#8 2#8 3#8 31#5) demo) = some true ∧
    nextView State.misuse (exec (.endFrame 0#16) streaming) = some true ∧
    nextView State.misuse (exec (.write 0x1000#32 1#16 31#5) streaming) = some true ∧
    nextView State.misuse (exec (.write 0x1000#32 1#16 31#5) (streaming.setPort 1)) = some true := by decide +kernel

theorem witness_MisuseIsSticky :
    (∃ t, step { demo with misuse := true } = .next t) ∧
    ∃ t, step { hole with misuse := true } = .fault (.memNotAdmitted 0x1004 t) :=
  ⟨⟨_, exec_completes (i := .startFrame) (s := { demo with misuse := true }) (pp := strip0)
      ⟨by decide, by decide, by decide⟩ rfl⟩, _,
    exec_write_stuck (s := { hole with misuse := true }) (pp := strip0) (base := 0x1000#32) (count := 2#16) (br := 31#5)
      ⟨by decide, by decide, by decide⟩ (by decide)
      ⟨hole_stuckRead.led, hole_stuckRead.byte, hole_stuckRead.bad, hole_stuckRead.ok⟩⟩

/-- Each outcome, and two states that differ in ghost state. -/
theorem witness_GhostStateNeverChangesTheEvents :
    SameButGhost demo { demo with ghost := [(0, ⟨.streaming, 3⟩)], misuse := true } ∧
    exec .startFrame demo = .next streaming ∧ exec (.write 0x1000#32 2#16 31#5) hole = .fault (.memNotAdmitted 0x1004 stuck) ∧
    exec .startFrame badPins = .refused .badPinMap :=
  ⟨⟨rfl, rfl, rfl, rfl, rfl, rfl, rfl, rfl, rfl⟩, demo_start, hole_write, rfl⟩

theorem witness_PinStateIsNeverRead : exec .startFrame demo = .next streaming := demo_start

/-- Strip 1 not initialised (`Z`), and strip 1 held low after its own frame. -/
theorem witness_SharedClockSamplesTheHeldValue :
    (Inv demo ∧ exec .startFrame demo = .next streaming ∧ demo.config.bindings[demo.port]? = some strip0 ∧
      demo.config.bindings[1]? = some strip1 ∧ 1 ≠ demo.port ∧ strip1.clk = strip0.clk ∧ runsInit .startFrame = true ∧
      demo.pins.wire strip1.data = .z) ∧
    (Inv written1 ∧ (∃ t, exec .startFrame written1 = .next t) ∧ written1.config.bindings[written1.port]? = some strip0 ∧
      written1.config.bindings[1]? = some strip1 ∧ 1 ≠ written1.port ∧ written1.misuse = false ∧
      (written1.ghostOf 1).phase = .idle ∧ written1.pins.oeBit strip1.data = true ∧ written1.pins.oeBit strip0.clk = true) :=
  ⟨⟨demo_inv, demo_start, rfl, rfl, by decide, rfl, rfl, by decide⟩, written1_inv,
    ⟨_, exec_completes (pp := strip0) ⟨by decide, by decide, by decide⟩ rfl⟩, rfl, rfl, by decide, by decide, by decide,
    by rw [written1_pins]; decide, by rw [written1_pins]; decide⟩

theorem witness_BadPinMapRefusesTheRun :
    pinMapOk badPins.config = false ∧ (0 : Pin) ≠ 1 ∧ (0 : Pin) ≠ 2 ∧ (1 : Pin) ≠ 2 := by decide

theorem witness_CapabilityInterfaceIsWriteAlone :
    Accepts capability strip0 ∧ capability.interface = .capability ∧
    ∃ t, exec (.write 0x1000#32 1#16 31#5) capability = .next t :=
  ⟨capability_accepts, rfl, _, exec_completes capability_accepts ⟨by decide, admitted_of_config rfl (by decide)⟩⟩

theorem witness_SecondCommandInFlightIsRefused :
    Steps busy ∧ busy.config.bindings[busy.port]? = some strip0 ∧ busy.seq.isSome ∧ busy.interface = .concrete ∧
    Accepts demo strip0 ∧ demo.interface = .concrete := ⟨busy_steps, rfl, rfl, rfl, demo_accepts, rfl⟩

/-- The first instance number that does not exist. -/
theorem witness_NoSuchInstanceIsRefused : Steps (demo.setPort 2) ∧ (demo.setPort 2).config.bindings.length ≤ (demo.setPort 2).port :=
  ⟨⟨by decide, by decide⟩, by decide⟩

/-- Each clause. -/
theorem witness_OutcomesAreTakenInOrder :
    pinMapOk badPins.config = false ∧
    (Steps truncated ∧ decode 0x9F000001#32 (secondWord [⟨0, 0x9F000001#32⟩] truncated.cpc ⟨0, 0x9F000001#32⟩) =
      .error .truncated) ∧
    (Steps capability ∧ capability.config.bindings[capability.port]? = some strip0 ∧ capability.interface = .capability ∧
      inCapability .startFrame = false) ∧
    (Steps busy ∧ busy.config.bindings[busy.port]? = some strip0 ∧ busy.seq.isSome) ∧
    (Accepts demo strip0 ∧ addrOverflow 0xFFFFFFFE#32 1#16 = true) :=
  ⟨by decide, ⟨⟨by decide, by decide⟩, by decide⟩, ⟨⟨by decide, by decide⟩, rfl, rfl, rfl⟩, ⟨busy_steps, rfl, rfl⟩,
    demo_accepts, by decide⟩

/-- A step in each form of the command list, and a list that is used up. -/
theorem witness_CpcAdvancesByTheCommandLength :
    (demo.fetch = .command 0 .startFrame ∧ step demo = .next streaming ∧ (∃ ws, demo.program = .words ws) ∧ Inv demo) ∧
    (records.fetch = .command 0 (.endFrame 1#16) ∧ (∃ t, step records = .next t) ∧ ∃ rs, records.program = .records rs) ∧
    (Steps State.reset ∧ State.reset.cpc = State.reset.program.length) :=
  ⟨⟨by decide, demo_step, ⟨_, rfl⟩, demo_inv⟩,
    ⟨by decide, ⟨_, exec_completes (i := .endFrame 1#16) (pp := strip0) records_accepts rfl⟩, _, rfl⟩,
    ⟨by decide, by decide⟩, rfl⟩

theorem witness_RunEndsWhereTheListEnds :
    (Inv demo ∧ Steps demo ∧ demo.cpc ≠ demo.program.length) ∧
    (Inv { demo with program := .words [] } ∧ Steps { demo with program := .words [] } ∧
      ({ demo with program := .words [] } : State).cpc = (Program.words []).length ∧
      ({ demo with program := .words [] } : State).final = true) ∧
    pinMapOk badPins.config = false :=
  ⟨⟨demo_inv, demo_steps, by decide⟩,
    ⟨{ demo_inv with cpc := by decide }, ⟨by decide, by decide⟩, rfl, by decide⟩, by decide⟩

theorem witness_PinsCannotBeRebound :
    exec .startFrame demo = .next streaming ∧ step demo = .next streaming ∧
    step hole = .fault (.memNotAdmitted 0x1004 stuck) ∧ ∃ t, busy.tick = some t := ⟨demo_start, demo_step, hole_step, _, rfl⟩

theorem witness_InvariantHoldsAtReset : Memory.wf mem := by decide

theorem witness_EveryStepKeepsTheInvariant :
    (Inv demo ∧ step demo = .next streaming) ∧ Inv streaming ∧ ∃ t, step streaming = .next t :=
  ⟨⟨demo_inv, demo_step⟩, streaming_inv, streaming_send 1#8 2#8 3#8 31#5⟩

theorem witness_EventByEventIsTheSameAsOneStep :
    (Accepts demo strip0 ∧ exec .startFrame demo = .next streaming) ∧
    (Accepts hole strip0 ∧ exec (.write 0x1000#32 2#16 31#5) hole = .fault (.memNotAdmitted 0x1004 stuck)) :=
  ⟨⟨demo_accepts, demo_start⟩, hole_accepts, hole_write⟩

theorem witness_HostStoresAreSeen :
    0x1001 ≠ (0x1000#32).toNat ∧ Memory.wf demo.mem ∧ Memory.wf mem ∧ ∀ a, hostByte demo.mem a = hostByte mem a :=
  ⟨by decide, by decide, by decide, fun _ => rfl⟩

/-- From reset, and after a START_FRAME. -/
theorem witness_WaveformsGiveTheBitStream :
    4 ≤ (initEvents strip0).length ∧ Inv demo ∧ Inv streaming ∧ strip1 ∈ streaming.config.bindings :=
  ⟨by decide, demo_inv, streaming_inv, by decide⟩

end Sys2Proof.Tests
end

section
/-!
PROOFS of the statements about the scope of the model (00_scope.md): the well-formed pin maps (R8, R35), and the waveforms of a
run (R7) with the bit stream read from them (R118).
-/

namespace Sys2Proof.Machine

/-! The pin map. -/

/-- The pin map is looked at before anything else (60_exceptions.md R179; log entries 13, 23). -/
theorem step_of_bad_pinMap {s : State} (h : pinMapOk s.config = false) : step s = .refused .badPinMap := if_pos h

/-- Two instances may share a clock pin (10_state.md R35). -/
theorem pinMapOk_shared_clock (a : List AddrRange) {c d1 d2 : Pin} (h1 : c ≠ d1) (h2 : c ≠ d2) (h12 : d1 ≠ d2) :
    pinMapOk { bindings := [{ clk := c, data := d1 }, { clk := c, data := d2 }], readable := a } = true := by
  refine (pinMapOk_iff _).mpr ⟨List.cons_ne_nil _ _, fun k pk hk => ?_⟩
  match k with
  | 0 =>
    obtain rfl : PinPair.mk c d1 = pk := by simpa using hk
    refine ⟨h1, fun j pj hj hne => ?_⟩
    match j with
    | 0 => exact absurd rfl hne
    | 1 =>
      obtain rfl : PinPair.mk c d2 = pj := by simpa using hj
      exact ⟨h1.symm, h12⟩
    | _ + 2 => simp at hj
  | 1 =>
    obtain rfl : PinPair.mk c d2 = pk := by simpa using hk
    refine ⟨h2, fun j pj hj hne => ?_⟩
    match j with
    | 0 =>
      obtain rfl : PinPair.mk c d1 = pj := by simpa using hj
      exact ⟨h2.symm, h12.symm⟩
    | 1 => exact absurd rfl hne
    | _ + 2 => simp at hj
  | _ + 2 => simp at hk

/-- Settles O47: `pinMapOk_iff` with the condition on one instance and the condition on two told apart, and the order of the
checks of a step. -/
theorem badPinMapRefusesTheRun : Obligations.BadPinMapRefusesTheRun := by
  refine ⟨fun c => ?_, fun s => step_of_bad_pinMap, fun a c d1 d2 => pinMapOk_shared_clock a⟩
  rw [pinMapOk_iff]
  refine and_congr_right fun _ => ⟨fun h => ?_, fun ⟨hself, hother⟩ k pk hk => ?_⟩
  · exact ⟨fun k pk hk => (h k pk hk).1, fun k j pk pj hk hj => (h k pk hk).2 j pj hj⟩
  · exact ⟨hself k pk hk, fun j pj hj => hother k j pk pj hk hj⟩

/-! The waveforms (00_scope.md R7). -/

/-- Level number `n` of a waveform is the wire level after `n` events. -/
theorem waveform_getElem? (p : Pin) (f : PinFile) (evs : List Event) (n : Nat) (h : n ≤ evs.length) :
    (waveform p f evs)[n]? = some (((evs.take n).foldl PinFile.apply f).wire p) := by
  induction evs generalizing f n with
  | nil =>
    obtain rfl : n = 0 := by simpa using h
    rfl
  | cons ev evs ih =>
    cases n with
    | zero => rfl
    | succ n => exact ih (f.apply ev) n (Nat.le_of_succ_le_succ h)

/-- The waveforms since reset end at the wire level of now, because the pin state is what the trace makes of the reset
state. -/
theorem State.waveform_last {s : State} (h : Inv s) (p : Pin) :
    (s.waveform p)[s.trace.length]? = some (s.pins.wire p) := by
  rw [State.waveform, waveform_getElem? p _ _ _ le_rfl, List.take_length, ← h.replay]

theorem mem_boundPins {c : HwConfig} {p : Pin} : p ∈ boundPins c ↔ ∃ pp ∈ c.bindings, p = pp.clk ∨ p = pp.data := by
  simp [boundPins]

theorem State.observeRun_waves_of_bound {s : State} {p : Pin} (h : p ∈ boundPins s.config) :
    (p, s.waveform p) ∈ s.observeRun.waves := List.mem_map_of_mem h

/-! The bit stream read from the waveforms (40_bit_transfer.md R118). -/

theorem PinFile.wire_eq_driven (f : PinFile) (p : Pin) (l : Level) :
    f.wire p = .driven l ↔ f.oeBit p = true ∧ f.latch p = l := by
  cases h : f.oeBit p <;> simp [PinFile.wire, h]

/-- A rising edge is where the wire goes from 0 to 1: a `Cfg` changes no latch, and a `Set` of another pin or to 0 does not
make the line 1. -/
theorem isRisingEdge_iff_wire (c : Pin) (f : PinFile) (ev : Event) :
    isRisingEdge c f ev = true ↔ f.wire c = .driven false ∧ (f.apply ev).wire c = .driven true := by
  rw [isRisingEdge_iff, PinFile.wire_eq_driven, PinFile.wire_eq_driven]
  cases ev with
  | cfg p => simp +contextual [latch_apply_cfg]
  | set p l =>
    by_cases h : c = p
    · subst h
      simp only [oeBit_apply, latch_apply_set, Event.set.injEq, reduceCtorEq, true_and, if_true, decide_false, Bool.false_or]
      tauto
    · simp +contextual [latch_apply_set, h, Ne.symm h]

/-- What the waveforms of a strip's pins give at event number `n`: the data level after it, if the clock goes from 0 to 1. -/
def waveSample (strip : PinPair) (f : PinFile) (evs : List Event) (n : Nat) : Option Wire :=
  if (waveform strip.clk f evs)[n]? = some (.driven false) ∧ (waveform strip.clk f evs)[n + 1]? = some (.driven true) then
    (waveform strip.data f evs)[n + 1]?
  else none

theorem waveSample_zero (strip : PinPair) (f : PinFile) (ev : Event) (evs : List Event) :
    waveSample strip f (ev :: evs) 0 =
      if isRisingEdge strip.clk f ev then some ((f.apply ev).wire strip.data) else none := by
  simp only [waveSample, waveform_zero, waveform_succ, Option.some.injEq, isRisingEdge_iff_wire]

theorem waveSample_succ (strip : PinPair) (f : PinFile) (ev : Event) (evs : List Event) (n : Nat) :
    waveSample strip f (ev :: evs) (n + 1) = waveSample strip (f.apply ev) evs n := rfl

theorem sampledBits_eq_waveSamples (strip : PinPair) (f : PinFile) (evs : List Event) :
    sampledBits strip f evs = (List.range evs.length).filterMap (waveSample strip f evs) := by
  induction evs generalizing f with
  | nil => rfl
  | cons ev evs ih =>
    have hrest : (List.range evs.length).filterMap (waveSample strip f (ev :: evs) ∘ Nat.succ) =
        sampledBits strip (f.apply ev) evs := (ih (f.apply ev)).symm
    rw [List.length_cons, List.range_succ_eq_map, List.filterMap_cons, List.filterMap_map, hrest, waveSample_zero, sampledBits]
    by_cases h : isRisingEdge strip.clk f ev = true <;> simp [h]

/-- Settles O60: each level of a waveform by induction over the events; the last one by the invariant; and the bit stream by
induction over the trace, a rising edge being a change of the clock's wire from 0 to 1. -/
theorem waveformsGiveTheBitStream : Obligations.WaveformsGiveTheBitStream := by
  refine ⟨waveform_getElem?, fun s p h => State.waveform_last h p, fun s pp hpp => ?_, fun s strip => ?_⟩
  · exact ⟨State.observeRun_waves_of_bound (mem_boundPins.mpr ⟨pp, hpp, .inl rfl⟩),
      State.observeRun_waves_of_bound (mem_boundPins.mpr ⟨pp, hpp, .inr rfl⟩)⟩
  · exact sampledBits_eq_waveSamples strip PinFile.initial s.trace

end Sys2Proof.Machine
end

section
/-!
SUPPORT. What the host's command list gives at `cpc`, and what a step makes of it, said once (10_state.md R48, 60_exceptions.md
R179).
-/

namespace Sys2Proof.Machine

/-! The command at `cpc`. -/

/-- Only a WRITE is longer than one word, and it has its second word (30_encoding.md R96). -/
theorem wordCount_of_decode {w : Word} {next : Option Word} {i : Instr} {n : Nat} (h : decode w next = .ok (i, n)) :
    i.wordCount = 1 ∨ (i.wordCount = 2 ∧ next.isSome) := by
  rcases decode_cases w next with ⟨-, -, e⟩ | ⟨-, e⟩ | ⟨-, -, e⟩ | ⟨-, -, -, e⟩ | ⟨-, -, b, rfl, e⟩ | ⟨-, e⟩
  all_goals rw [e] at h; cases h
  · exact .inl rfl
  · exact .inl rfl
  · exact .inl rfl
  · exact .inr ⟨rfl, rfl⟩

/-- The fetch reads the second word as `secondWord` does. -/
theorem fetchWord_of_decode {ws : List PortWord} {n m : Nat} {w : PortWord} {i : Instr} (hw : ws[n]? = some w)
    (hd : decode w.word (secondWord ws n w) = .ok (i, m)) : fetchWord ws n = .command w.inst i := by
  unfold secondWord at hd
  simp only [fetchWord, hw]
  cases hn : ws[n + 1]? <;> simp only [hn] at hd <;> simp only [hd]

theorem fetchWord_of_decode_error {ws : List PortWord} {n : Nat} {w : PortWord} {e : DecodeError} (hw : ws[n]? = some w)
    (hd : decode w.word (secondWord ws n w) = .error e) : fetchWord ws n = .rejected (decodeRefusal e) := by
  unfold secondWord at hd
  simp only [fetchWord, hw]
  cases hn : ws[n + 1]? <;> simp only [hn] at hd <;> simp only [hd]

theorem fetchWord_command_inv {ws : List PortWord} {n k : Nat} {i : Instr} (h : fetchWord ws n = .command k i) :
    ∃ w m, ws[n]? = some w ∧ w.inst = k ∧ decode w.word (secondWord ws n w) = .ok (i, m) := by
  cases hw : ws[n]? with
  | none => simp [fetchWord, hw] at h
  | some w =>
    cases hd : decode w.word (secondWord ws n w) with
    | error e => rw [fetchWord_of_decode_error hw hd] at h; cases h
    | ok p =>
      rw [fetchWord_of_decode hw hd] at h
      cases h
      exact ⟨w, p.2, rfl, rfl, hd⟩

theorem lt_length_of_secondWord {ws : List PortWord} {n : Nat} {w : PortWord} (h : (secondWord ws n w).isSome) :
    n + 1 < ws.length := by
  cases hn : ws[n + 1]? with
  | none => simp [secondWord, hn] at h
  | some w' => exact (List.getElem?_eq_some_iff.mp hn).1

/-- The command at `cpc` lies within the list, its second word included. -/
theorem fetch_command_le {s : State} {k : Nat} {i : Instr} (h : s.fetch = .command k i) :
    s.cpc + s.cmdLength i ≤ s.program.length := by
  unfold State.fetch at h
  cases hp : s.program with
  | words ws =>
    rw [hp] at h
    obtain ⟨w, m, hw, -, hd⟩ := fetchWord_command_inv h
    have hlt := (List.getElem?_eq_some_iff.mp hw).1
    simp only [State.cmdLength, hp, Program.length]
    rcases wordCount_of_decode hd with h1 | ⟨h2, hsome⟩
    · omega
    · have := lt_length_of_secondWord hsome
      omega
  | records rs =>
    rw [hp] at h
    simp only [State.cmdLength, hp, Program.length]
    have hlt : s.cpc < rs.length := by
      by_contra hge
      simp [fetchRecord, List.getElem?_eq_none (Nat.le_of_not_lt hge)] at h
    omega

theorem fetch_at_end {s : State} (h : s.cpc = s.program.length) : s.fetch = .ended := by
  unfold State.fetch
  cases hp : s.program <;> simp [fetchWord, fetchRecord, h, hp, Program.length]

/-! The step. -/

theorem step_of_fetch_command {s : State} {k : Nat} {i : Instr} (h : Steps s) (hf : s.fetch = .command k i) :
    step s = exec i (s.setPort k) := by
  simp [step, h.pinMap, h.free, hf]

theorem step_of_fetch_ended {s : State} (h : Steps s) (hf : s.fetch = .ended) : step s = .fault .runEnded := by
  simp [step, h.pinMap, h.free, hf]

/-- A step answers the stuck fault in a state that is stuck already, or on a WRITE at its first read that is not admitted. -/
theorem step_stuck_inv {s t : State} {a : Nat} (h : step s = .fault (.memNotAdmitted a t)) :
    (s.stuckAt = some a ∧ t = s) ∨
    ∃ k pp base count br m j, s.fetch = .command k (.write base count br) ∧ Accepts (s.setPort k) pp ∧
      addrOverflow base count = false ∧ StuckRead (s.setPort k) base count m j ∧ a = colourAddr base m j ∧
      t = stuckState base count br pp (s.setPort k) m j := by
  unfold step at h
  split at h
  · cases h
  · split at h
    · next b hb => cases h; exact .inl ⟨hb, rfl⟩
    · next hfree =>
      split at h
      · cases h
      · cases h
      · next k i hf =>
        rcases exec_fault_inv h with ⟨b, hb, -⟩ | ⟨pp, base, count, br, m, j, ha, rfl, ho, hs, e⟩
        · rw [show (s.setPort k).stuckAt = s.stuckAt from rfl, hfree] at hb; cases hb
        · cases e
          exact .inr ⟨k, pp, base, count, br, m, j, hf, ha, ho, hs, rfl, rfl⟩

end Sys2Proof.Machine
end

section
/-!
PROOFS of the statements about the invariant and the run (10_state.md R48, R49, R50).
-/

namespace Sys2Proof.Machine

/-! The invariant between commands. -/

theorem Inv.setPort {s : State} (h : Inv s) (k : Nat) : Inv (s.setPort k) where
  mem := h.mem
  idle := h.idle
  cpc := h.cpc
  oe := h.oe
  q := h.q
  ghost := h.ghost
  ghostKeys := h.ghostKeys
  replay := h.replay
  written := h.written
  clkLow := h.clkLow
  bothOut := h.bothOut
  idleLow := h.idleLow
  streamingOut := h.streamingOut

/-- After reset no pin is driven, no latch is written and no instance has ghost state. -/
theorem State.start_inv (c : HwConfig) {mem : List Host.Cell} (p : Program) (f : Interface) (h : Memory.wf mem) :
    Inv (State.start c mem p f) where
  mem := h
  idle := rfl
  cpc := Nat.zero_le _
  oe := ⟨.nil, by simp [State.start]⟩
  q := .nil
  ghost := ⟨.nil, by simp [State.start]⟩
  ghostKeys := by simp [State.start]
  replay := rfl
  written := by simp [State.start, PinFile.oeBit, load]
  clkLow := by simp [State.start]
  bothOut := by simp [State.start, PinFile.oeBit, load]
  idleLow := by simp [State.start]
  streamingOut := by simp [State.start, State.ghostOf, load, Ghost.initial]

/-- Settles O56: nothing is driven, written or streaming at the start of a run. -/
theorem invariantHoldsAtReset : Obligations.InvariantHoldsAtReset :=
  ⟨State.start_inv _ _ _ reset_mem_wf, fun c _ p f h => State.start_inv c p f h⟩

/-- Every entry of the pin map is that of the running command, or another whose pins are apart but for a shared clock
(10_state.md R35). -/
theorem accepts_binding_cases {s : State} {pp other : PinPair} {k : Nat} (h : Accepts s pp)
    (hb : s.config.bindings[k]? = some other) :
    (k = s.port ∧ other = pp) ∨
    (k ≠ s.port ∧ other.data ≠ pp.clk ∧ other.data ≠ pp.data ∧ other.clk ≠ pp.data) := by
  by_cases hk : k = s.port
  · subst hk
    exact .inl ⟨rfl, accepts_bound_eq h hb⟩
  · exact .inr ⟨hk, accepts_other_pins h hb hk⟩

/-- The last bit a command sends (10_state.md R45): that of red after SEND_COLOR, and of a zero byte after the others. -/
def lastDataBit : Instr → Level
  | .startFrame => false
  | .sendColor r _ _ _ => r.getLsbD 0
  | .endFrame _ => false
  | .write _ _ _ => false

section
variable {s : State} {pp : PinPair} {i : Instr}

/-- No command takes an output back. -/
theorem completed_oeBit_of_oeBit {p : Pin} (h : s.pins.oeBit p = true) : (completed i pp s).pins.oeBit p = true := by
  rw [completed_oeBit, h, Bool.or_true]

/-- A command that runs INIT makes both its lines outputs (40_bit_transfer.md R112). -/
theorem completed_oeBit_of_runsInit (h : runsInit i = true) {p : Pin} (hp : p = pp.clk ∨ p = pp.data) :
    (completed i pp s).pins.oeBit p = true := by
  rw [completed_oeBit, h, decide_eq_true hp]; rfl

theorem completed_oeBit_other {p : Pin} (h1 : p ≠ pp.clk) (h2 : p ≠ pp.data) :
    (completed i pp s).pins.oeBit p = s.pins.oeBit p := by
  rw [completed_oeBit]; simp [h1, h2]

theorem completed_find?_clk (h : Accepts s pp) : find? pp.clk (completed i pp s).pins.q = some false := by
  rw [completed_find? _ _ _ (accepts_pins_ne h), if_pos rfl]

theorem completed_find?_data (h : Accepts s pp) :
    find? pp.data (completed i pp s).pins.q = some (lastDataBit i) := by
  rw [completed_find? _ _ _ (accepts_pins_ne h), if_neg (accepts_pins_ne h).symm, if_pos rfl]
  cases i <;> rfl

theorem completed_find?_other (h : Accepts s pp) {p : Pin} (h1 : p ≠ pp.clk) (h2 : p ≠ pp.data) :
    find? p (completed i pp s).pins.q = find? p s.pins.q := by
  rw [completed_find? _ _ _ (accepts_pins_ne h), if_neg h1, if_neg h2]

theorem completed_ghostOf_own : (completed i pp s).ghostOf s.port = ghostAfter i (s.ghostOf s.port) := by
  rw [completed_ghostOf, if_pos rfl]

theorem completed_ghostOf_other {k : Nat} (h : k ≠ s.port) : (completed i pp s).ghostOf k = s.ghostOf k := by
  rw [completed_ghostOf, if_neg h]

/-- A driven line's latch is still a written one: the command drives only lines that it also sets. -/
theorem completed_written (hi : Inv s) (h : Accepts s pp) (p : Pin) (hp : (completed i pp s).pins.oeBit p = true) :
    (find? p (completed i pp s).pins.q).isSome := by
  by_cases h1 : p = pp.clk
  · subst h1; rw [completed_find?_clk h]; rfl
  · by_cases h2 : p = pp.data
    · subst h2; rw [completed_find?_data h]; rfl
    · rw [completed_oeBit_other h1 h2] at hp
      rw [completed_find?_other h h1 h2]
      exact hi.written p hp

/-- Every clock latch is still 0: no clock pin is the running instance's data pin. -/
theorem completed_clkLow (hi : Inv s) (h : Accepts s pp) (other : PinPair) (hm : other ∈ s.config.bindings) :
    find? other.clk (completed i pp s).pins.q ≠ some true := by
  by_cases h1 : other.clk = pp.clk
  · rw [h1, completed_find?_clk h]; simp
  · obtain ⟨k, hb⟩ := List.mem_iff_getElem?.mp hm
    rcases accepts_binding_cases h hb with ⟨-, rfl⟩ | ⟨-, -, -, h2⟩
    · exact absurd rfl h1
    · rw [completed_find?_other h h1 h2]
      exact hi.clkLow other hm

theorem completed_bothOut (hi : Inv s) (h : Accepts s pp) (other : PinPair) (hm : other ∈ s.config.bindings)
    (hd : (completed i pp s).pins.oeBit other.data = true) : (completed i pp s).pins.oeBit other.clk = true := by
  obtain ⟨k, hb⟩ := List.mem_iff_getElem?.mp hm
  rcases accepts_binding_cases h hb with ⟨-, rfl⟩ | ⟨-, h1, h2, -⟩
  · cases hr : runsInit i with
    | true => exact completed_oeBit_of_runsInit hr (.inl rfl)
    | false =>
      rw [completed_oeBit, hr, Bool.false_and, Bool.false_or] at hd
      exact completed_oeBit_of_oeBit (hi.bothOut other hm hd)
  · rw [completed_oeBit_other h1 h2] at hd
    exact completed_oeBit_of_oeBit (hi.bothOut other hm hd)

/-- The only command that can leave its own data latch at 1 is SEND_COLOR, and on an idle instance that is misuse. -/
theorem completed_idleLow (hi : Inv s) (h : Accepts s pp) (hm : (completed i pp s).misuse = false) (k : Nat)
    (other : PinPair) (hb : s.config.bindings[k]? = some other) (hidle : ((completed i pp s).ghostOf k).phase = .idle) :
    find? other.data (completed i pp s).pins.q ≠ some true := by
  rw [completed_misuse, Bool.or_eq_false_iff, misuseOf, Bool.or_eq_false_iff] at hm
  obtain ⟨hmisuse, hown, -⟩ := hm
  rcases accepts_binding_cases h hb with ⟨rfl, rfl⟩ | ⟨hk, h1, h2, -⟩
  · rw [completed_ghostOf_own] at hidle
    rw [completed_find?_data h]
    cases i with
    | startFrame => simp [lastDataBit]
    | sendColor r g b br => exact absurd hidle (of_decide_eq_false hown)
    | endFrame count => simp [lastDataBit]
    | write base count br => simp [lastDataBit]
  · rw [completed_ghostOf_other hk] at hidle
    rw [completed_find?_other h h1 h2]
    exact hi.idleLow hmisuse k other hb hidle

/-- An instance streams after a command only if the command is its START_FRAME, which runs INIT, or if it streamed before. -/
theorem completed_streamingOut (hi : Inv s) (h : Accepts s pp) (k : Nat) (other : PinPair)
    (hb : s.config.bindings[k]? = some other) (hst : ((completed i pp s).ghostOf k).phase = .streaming) :
    (completed i pp s).pins.oeBit other.data = true := by
  rcases accepts_binding_cases h hb with ⟨rfl, rfl⟩ | ⟨hk, -⟩
  · rw [completed_ghostOf_own] at hst
    cases i with
    | startFrame => exact completed_oeBit_of_runsInit rfl (.inr rfl)
    | sendColor r g b br => exact completed_oeBit_of_oeBit (hi.streamingOut _ _ hb hst)
    | endFrame count => cases hst
    | write base count br => cases hst
  · rw [completed_ghostOf_other hk] at hst
    exact completed_oeBit_of_oeBit (hi.streamingOut k other hb hst)

/-- A command that lies within the command list keeps the invariant. -/
theorem completed_inv (hi : Inv s) (h : Accepts s pp) (hcpc : s.cpc + s.cmdLength i ≤ s.program.length) :
    Inv (completed i pp s) where
  mem := by rw [completed_mem]; exact hi.mem
  idle := completed_seq i pp s
  cpc := by rw [completed_cpc, completed_program]; exact hcpc
  oe := by rw [completed_pins]; exact (foldl_canonical ⟨hi.oe, hi.q⟩ _).1
  q := by rw [completed_pins]; exact (foldl_canonical ⟨hi.oe, hi.q⟩ _).2
  ghost := by rw [completed_ghost]; exact store_canonical hi.ghost
  ghostKeys := by
    rw [completed_ghost, completed_config]
    intro e he
    rcases mem_store he with rfl | he
    · exact (List.getElem?_eq_some_iff.mp h.bound).1
    · exact hi.ghostKeys e he
  replay := by rw [completed_pins, completed_trace, List.foldl_append, ← hi.replay]
  written := completed_written hi h
  clkLow := completed_clkLow hi h
  bothOut := completed_bothOut hi h
  idleLow := by rw [completed_config]; exact completed_idleLow hi h
  streamingOut := by rw [completed_config]; exact completed_streamingOut hi h

end

/-- Settles O57: a step is a completed command that lies within the list, and that keeps the invariant field by field. -/
theorem everyStepKeepsTheInvariant : Obligations.EveryStepKeepsTheInvariant := by
  intro s t hi hstep
  obtain ⟨k, i, pp, hf, ha, -, rfl⟩ := step_next_inv hstep
  exact completed_inv (hi.setPort k) ha (fetch_command_le hf)

/-! The run. -/

/-- Settles O52: by what a step is, and by where the command it runs lies in the list. -/
theorem cpcAdvancesByTheCommandLength : Obligations.CpcAdvancesByTheCommandLength := by
  refine ⟨fun _ => rfl, fun s t k i hf hstep => ?_, fun s t hi hstep => (everyStepKeepsTheInvariant s t hi hstep).cpc,
    fun s hs hend => step_of_fetch_ended hs (fetch_at_end hend)⟩
  obtain ⟨k', i', pp, hf', -, -, rfl⟩ := step_next_inv hstep
  obtain ⟨rfl, rfl⟩ : k = k' ∧ i = i' := by rwa [hf, Fetched.command.injEq] at hf'
  simp only [completed_cpc, State.setPort_cpc, State.setPort_cmdLength]
  refine ⟨fun ws hp => ?_, fun rs hp => ?_⟩
  · simp only [State.cmdLength, hp]
    cases i <;> rfl
  · simp only [State.cmdLength, hp]

/-- Settles O7: the fetch reads the second word as `secondWord` does. -/
theorem stepRunsTheDecodedCommand : Obligations.StepRunsTheDecodedCommand := by
  intro s ws w i n hs hp hw hd
  have hf : s.fetch = .command w.inst i := by
    simp only [State.fetch, hp]
    exact fetchWord_of_decode hw hd
  exact step_of_fetch_command hs hf

end Sys2Proof.Machine
end

section
/-!
PROOFS of the statements about the pin state (10_state.md R30 to R34, R45, R46).
-/

namespace Sys2Proof.Machine

/-! The wire (10_state.md R32). -/

theorem PinFile.wire_of_driven {f : PinFile} {p : Pin} (h : f.oeBit p = true) : f.wire p = .driven (f.latch p) := by
  rw [PinFile.wire, if_pos h]

theorem PinFile.wire_eq_z (f : PinFile) (p : Pin) : f.wire p = .z ↔ f.oeBit p = false := by
  cases h : f.oeBit p <;> simp [PinFile.wire, h]

/-- Settles O14: the two branches of the wire. -/
theorem wireIsTheLatchOfADrivenPin : Obligations.WireIsTheLatchOfADrivenPin :=
  fun f p => ⟨PinFile.wire_of_driven, (PinFile.wire_eq_z f p).mpr⟩

/-! Direction bits (10_state.md R30). -/

/-- Settles O13: by what one event and a completed command do to a direction bit. -/
theorem outputsStayOutputs : Obligations.OutputsStayOutputs := by
  refine ⟨fun f ev p => ?_, fun s t p hstep hp => ?_, fun s p => rfl⟩
  · rw [oeBit_apply, Bool.or_eq_true, decide_eq_true_eq]
  · obtain ⟨k, i, pp, -, -, -, rfl⟩ := step_next_inv hstep
    exact completed_oeBit_of_oeBit (s := s.setPort k) hp

/-! What a completed command leaves on the lines. -/

theorem completed_oeBit_of_no_init {i : Instr} (h : runsInit i = false) (pp : PinPair) (s : State) (p : Pin) :
    (completed i pp s).pins.oeBit p = s.pins.oeBit p := by
  rw [completed_oeBit, h, Bool.false_and, Bool.false_or]

/-- Settles O26: the frame of a completed command, and that without INIT it writes no direction bit. -/
theorem commandsKeepTheFrame : Obligations.CommandsKeepTheFrame := by
  intro s t i h
  obtain ⟨pp, ha, -, rfl⟩ := exec_next_inv h
  exact ⟨pp, ha.bound, completed_frame ha i, completed_seq i pp s, fun hr => completed_oeBit_of_no_init hr pp s⟩

section
variable {s : State} {pp : PinPair} {i : Instr}

theorem latch_of_find? {f : PinFile} {p : Pin} {l : Level} (h : find? p f.q = some l) : f.latch p = l := by
  rw [latch_eq, h]; rfl

theorem completed_latch_clk (h : Accepts s pp) : (completed i pp s).pins.latch pp.clk = false :=
  latch_of_find? (completed_find?_clk h)

/-- Only SEND_COLOR ends on a byte whose last bit can be 1 (10_state.md R45). -/
theorem completed_latch_data (h : Accepts s pp) (hi : ∀ r g b br, i ≠ .sendColor r g b br) :
    (completed i pp s).pins.latch pp.data = false := by
  refine latch_of_find? ((completed_find?_data h).trans ?_)
  cases i with
  | startFrame => rfl
  | sendColor r g b br => exact absurd rfl (hi r g b br)
  | endFrame count => rfl
  | write base count br => rfl

theorem completed_latch_data_sendColor (h : Accepts s pp) (r g b : Byte) (br : Brightness) :
    (completed (.sendColor r g b br) pp s).pins.latch pp.data = r.getLsbD 0 :=
  latch_of_find? (completed_find?_data h)

/-- A command other than SEND_COLOR leaves its lines driving 0, where they are outputs after it (10_state.md R46). -/
theorem completed_lines_low (h : Accepts s pp) (hi : ∀ r g b br, i ≠ .sendColor r g b br)
    (hclk : (completed i pp s).pins.oeBit pp.clk = true) (hdata : (completed i pp s).pins.oeBit pp.data = true) :
    (completed i pp s).pins.wire pp.clk = .driven false ∧ (completed i pp s).pins.wire pp.data = .driven false := by
  rw [PinFile.wire_of_driven hclk, PinFile.wire_of_driven hdata, completed_latch_clk h, completed_latch_data h hi]
  exact ⟨rfl, rfl⟩

end

/-- Settles O27: the last byte of each command decides its data latch. -/
theorem latchesAfterACommand : Obligations.LatchesAfterACommand := by
  intro s t i pp h hb
  obtain ⟨pp', ha, -, rfl⟩ := exec_next_inv h
  obtain rfl := accepts_bound_eq ha hb
  refine ⟨completed_latch_clk ha, ?_, ?_, ?_, ?_⟩
  · rintro rfl; exact completed_latch_data ha (by simp)
  · rintro count rfl; exact completed_latch_data ha (by simp)
  · rintro r g b br rfl; exact completed_latch_data_sendColor ha r g b br
  · rintro base count br rfl; exact completed_latch_data ha (by simp)

/-- Settles O28: INIT makes the lines outputs, no command takes an output back, and the last byte sent leaves both latches
at 0. -/
theorem linesAreLeftDrivingLow : Obligations.LinesAreLeftDrivingLow := by
  intro s t i pp h hb
  obtain ⟨pp', ha, -, rfl⟩ := exec_next_inv h
  obtain rfl := accepts_bound_eq ha hb
  refine ⟨fun hr => ⟨completed_oeBit_of_runsInit hr (.inl rfl), completed_oeBit_of_runsInit hr (.inr rfl)⟩,
    fun p => completed_oeBit_of_oeBit, ?_, ?_⟩
  · rintro count rfl
    refine ⟨fun hc hd => ?_, fun p hz => ?_⟩
    · exact completed_lines_low ha (by simp) (completed_oeBit_of_oeBit hc) (completed_oeBit_of_oeBit hd)
    · rw [PinFile.wire_eq_z] at hz ⊢
      rwa [completed_oeBit_of_no_init rfl]
  · rintro base count br rfl
    exact completed_lines_low ha (by simp) (completed_oeBit_of_runsInit rfl (.inl rfl))
      (completed_oeBit_of_runsInit rfl (.inr rfl))

/-! Data is set while the clock is not high (40_bit_transfer.md R115). -/

/-- From pin state `f` on, the events set the data line only while the clock line is not at 1. -/
def SetsDataClockLow (pp : PinPair) : PinFile → List Event → Prop
  | _, [] => True
  | f, ev :: evs => (∀ l, ev = .set pp.data l → f.wire pp.clk ≠ .driven true) ∧ SetsDataClockLow pp (f.apply ev) evs

theorem setsDataClockLow_append {pp : PinPair} {f : PinFile} {a b : List Event} :
    SetsDataClockLow pp f (a ++ b) ↔ SetsDataClockLow pp f a ∧ SetsDataClockLow pp (a.foldl PinFile.apply f) b := by
  induction a generalizing f with
  | nil => simp [SetsDataClockLow]
  | cons ev a ih => simp only [List.cons_append, SetsDataClockLow, List.foldl_cons, ih, and_assoc]

theorem wire_ne_high_of_find? {f : PinFile} {p : Pin} (h : find? p f.q = some false) : f.wire p ≠ .driven true := by
  rw [ne_eq, PinFile.wire_eq_driven, latch_of_find? h]; simp

section
variable {pp : PinPair} (hne : pp.clk ≠ pp.data)
include hne

/-- A bit sets its data first, and ends with the clock latch at 0. -/
theorem bitEvents_setsDataClockLow {f : PinFile} (h : f.wire pp.clk ≠ .driven true) (l : Level) :
    SetsDataClockLow pp f (bitEvents pp l) ∧ ((bitEvents pp l).foldl PinFile.apply f).wire pp.clk ≠ .driven true := by
  refine ⟨⟨fun _ _ => h, ?_, ?_, trivial⟩, wire_ne_high_of_find? ?_⟩
  · exact fun l' e => absurd (Event.set.inj e).1 hne
  · exact fun l' e => absurd (Event.set.inj e).1 hne
  · simp [bitEvents, find?_apply]

theorem bits_setDataClockLow {f : PinFile} (h : f.wire pp.clk ≠ .driven true) (ls : List Level) :
    SetsDataClockLow pp f (ls.flatMap (bitEvents pp)) := by
  induction ls generalizing f with
  | nil => trivial
  | cons l ls ih =>
    obtain ⟨hbit, hlow⟩ := bitEvents_setsDataClockLow hne h l
    exact setsDataClockLow_append.mpr ⟨hbit, ih hlow⟩

/-- INIT sets its data line before it touches its clock line, and ends with the clock latch at 0. -/
theorem initEvents_setsDataClockLow {f : PinFile} (h : f.wire pp.clk ≠ .driven true) :
    SetsDataClockLow pp f (initEvents pp) ∧ ((initEvents pp).foldl PinFile.apply f).wire pp.clk ≠ .driven true := by
  refine ⟨⟨fun _ _ => h, by simp, ?_, by simp, trivial⟩, wire_ne_high_of_find? ?_⟩
  · exact fun l' e => absurd (Event.set.inj e).1 hne
  · rw [init_find?, if_pos (.inl rfl)]

theorem commandEvents_setDataClockLow {s : State} (h : s.pins.wire pp.clk ≠ .driven true) (i : Instr) :
    SetsDataClockLow pp s.pins (commandEvents i pp s) := by
  have hbits : (commandBytes i s).flatMap (transferEvents pp) =
      ((commandBytes i s).flatMap byteBits).flatMap (bitEvents pp) := List.flatMap_assoc.symm
  rw [commandEvents, hbits, setsDataClockLow_append]
  cases runsInit i with
  | false => exact ⟨trivial, bits_setDataClockLow hne h _⟩
  | true =>
    obtain ⟨hinit, hlow⟩ := initEvents_setsDataClockLow hne h
    exact ⟨hinit, bits_setDataClockLow hne hlow _⟩

end

/-- Between commands no clock line of the pin map is high: a driven line's latch is written, and a written clock latch is 0. -/
theorem Inv.clk_not_high {s : State} (h : Inv s) {pp : PinPair} (hm : pp ∈ s.config.bindings) :
    s.pins.wire pp.clk ≠ .driven true := by
  rw [ne_eq, PinFile.wire_eq_driven]
  rintro ⟨hout, hlatch⟩
  obtain ⟨l, hl⟩ := Option.isSome_iff_exists.mp (h.written _ hout)
  rw [latch_of_find? hl] at hlatch
  exact h.clkLow pp hm (hlatch ▸ hl)

/-- Settles O18: the clock line is not high before the command, and every event that sets the data line comes before the
bit's rising clock event or after its falling one. -/
theorem dataIsSetOnlyWhileTheClockIsLow : Obligations.DataIsSetOnlyWhileTheClockIsLow := by
  intro s t i pp before after l hi h hb htrace
  obtain ⟨pp', ha, -, rfl⟩ := exec_next_inv h
  obtain rfl := accepts_bound_eq ha hb
  have hevs : commandEvents i pp s = before ++ .set pp.data l :: after := by
    rwa [completed_trace, List.append_assoc, List.append_cancel_left_eq] at htrace
  have hlow := commandEvents_setDataClockLow (accepts_pins_ne ha) (hi.clk_not_high (List.mem_of_getElem? hb)) i
  rw [hevs, setsDataClockLow_append] at hlow
  exact hlow.2.1 l rfl

end Sys2Proof.Machine
end

section
/-!
PROOFS of the statements about the ghost state, about what the block does not read, and about commands that do not run
(10_state.md R33, R42, R43, 20_memory.md R62).
-/

namespace Sys2Proof.Machine

/-! The misuse flag (10_state.md R42). -/

/-- Settles O43: a completed command and a stuck WRITE both add to the flag, and nothing else writes it. -/
theorem misuseIsSticky : Obligations.MisuseIsSticky := by
  refine ⟨fun s t h hm => ?_, fun s t a h hm => ?_, fun s => rfl⟩
  · obtain ⟨k, i, pp, -, -, -, rfl⟩ := step_next_inv h
    rw [completed_misuse, State.setPort_misuse, hm, Bool.true_or]
  · rcases step_stuck_inv h with ⟨-, rfl⟩ | ⟨k, pp, base, count, br, m, j, -, -, -, -, -, rfl⟩
    · exact hm
    · simp [stuckState, hm]

/-! Refusals (60_exceptions.md R179). -/

/-- Every command goes through the acceptance checks. -/
theorem exec_eq_issue (i : Instr) (s : State) : ∃ run, exec i s = s.issue i run := by
  cases i <;> exact ⟨_, rfl⟩

/-- Where the acceptance checks do not pass, what the command would do makes no difference. -/
theorem issue_of_not_accepts {s : State} {i : Instr}
    (h : ¬ ∃ pp, Accepts s pp ∧ (s.interface = .concrete ∨ inCapability i = true))
    (run run' : PinPair → Host.Outcome State Fault Refusal) : s.issue i run = s.issue i run' := by
  rcases issue_cases s i run with ⟨h1, e⟩ | ⟨h1, a, h2, e⟩ | ⟨h1, h2, h3, e⟩ | ⟨h1, h2, ⟨pp, h3⟩, h4, h5, e⟩ |
    ⟨h1, h2, ⟨pp, h3⟩, h4, h5, e⟩ | ⟨pp, ha, hc, -⟩
  · rw [e]; simp [State.issue, h1]
  · rw [e]; simp [State.issue, h1, h2]
  · rw [e]; simp [State.issue, h1, h2, h3]
  · rw [e]; simp [State.issue, h1, h2, h3, h4, h5]
  · have hi : ¬ (s.interface = .capability ∧ inCapability i = false) := by
      rcases h4 with h4 | h4 <;> simp [h4]
    rw [e]; simp [State.issue, h1, h2, h3, hi, h5]
  · exact absurd ⟨pp, ha, hc⟩ h

theorem issue_refused_inv {s : State} {i : Instr} {run : PinPair → Host.Outcome State Fault Refusal} {r : Refusal}
    (h : s.issue i run = .refused r) :
    (∀ run', s.issue i run' = .refused r) ∨ ∃ pp, Accepts s pp ∧ run pp = .refused r := by
  by_cases hacc : ∃ pp, Accepts s pp ∧ (s.interface = .concrete ∨ inCapability i = true)
  · obtain ⟨pp, ha, hc⟩ := hacc
    exact .inr ⟨pp, ha, (issue_accepts ha hc).symm.trans h⟩
  · exact .inl fun run' => (issue_of_not_accepts hacc run' run).trans h

/-- A command is refused by the acceptance checks, or it is a WRITE whose array does not fit below the top of memory. -/
theorem exec_refused_inv {i : Instr} {s : State} {r : Refusal} (h : exec i s = .refused r) :
    (∀ run, s.issue i run = .refused r) ∨
    ∃ pp base count br, Accepts s pp ∧ i = .write base count br ∧ addrOverflow base count = true ∧ r = .addrOverflow := by
  cases i with
  | startFrame => exact (issue_refused_inv h).imp_right fun ⟨_, _, hr⟩ => nomatch hr
  | sendColor r g b br => exact (issue_refused_inv h).imp_right fun ⟨_, _, hr⟩ => nomatch hr
  | endFrame count => exact (issue_refused_inv h).imp_right fun ⟨_, _, hr⟩ => nomatch hr
  | write base count br =>
    refine (issue_refused_inv h).imp_right fun ⟨pp, ha, hr⟩ => ?_
    split at hr
    · next ho => cases hr; exact ⟨pp, base, count, br, ha, rfl, ho, rfl⟩
    · split at hr <;> cases hr

theorem exec_write_overflow {s : State} {pp : PinPair} {base : Addr} {count : Count} {br : Brightness} (h : Accepts s pp)
    (ho : addrOverflow base count = true) : exec (.write base count br) s = .refused .addrOverflow := by
  have hc : s.interface = .concrete ∨ inCapability (.write base count br) = true := .inr rfl
  simp only [exec, execWrite, issue_accepts h hc, ho, if_true]

theorem exec_of_bad_pinMap {s : State} (h : pinMapOk s.config = false) (i : Instr) : exec i s = .refused .badPinMap := by
  obtain ⟨run, e⟩ := exec_eq_issue i s
  rw [e]; simp [State.issue, h]

theorem exec_of_stuckAt {s : State} {a : Nat} (h : pinMapOk s.config = true) (ha : s.stuckAt = some a) (i : Instr) :
    exec i s = .fault (.memNotAdmitted a s) := by
  obtain ⟨run, e⟩ := exec_eq_issue i s
  rw [e]; simp [State.issue, h, ha]

theorem pinMapOk_of_exec_fault {s : State} {i : Instr} {f : Fault} (h : exec i s = .fault f) : pinMapOk s.config = true := by
  by_contra hbad
  rw [exec_of_bad_pinMap (Bool.eq_false_iff.mpr hbad)] at h
  cases h

/-- Settles O50: the acceptance checks find no pins for the port. -/
theorem noSuchInstanceIsRefused : Obligations.NoSuchInstanceIsRefused := by
  intro s i hs hk
  obtain ⟨run, e⟩ := exec_eq_issue i s
  rw [e]
  simp [State.issue, hs.pinMap, hs.free, List.getElem?_eq_none hk]

/-! What the ghost state does not reach (10_state.md R43). -/

section
variable {s s' : State} (h : SameButGhost s s')
include h

theorem SameButGhost.stuckAt_eq : s'.stuckAt = s.stuckAt := by
  unfold State.stuckAt; rw [h.seq, h.config]

theorem SameButGhost.accepts {pp : PinPair} (ha : Accepts s pp) : Accepts s' pp where
  pinMap := by rw [h.config]; exact ha.pinMap
  bound := by rw [h.config, h.port]; exact ha.bound
  idle := h.seq.trans ha.idle

theorem SameButGhost.completable {i : Instr} (hc : Completable i s) : Completable i s' := by
  cases i with
  | startFrame => exact h.interface.trans hc
  | sendColor r g b br => exact h.interface.trans hc
  | endFrame count => exact h.interface.trans hc
  | write base count br => exact ⟨hc.1, fun m j hm hj => by rw [h.config]; exact hc.2 m j hm hj⟩

theorem SameButGhost.stuckRead {base : Addr} {count : Count} {m j : Nat} (hs : StuckRead s base count m j) :
    StuckRead s' base count m j where
  led := hs.led
  byte := hs.byte
  bad := by rw [h.config]; exact hs.bad
  ok := by rw [h.config]; exact hs.ok

theorem SameButGhost.coloursFrom_eq (base : Addr) (n i : Nat) : coloursFrom s' base n i = coloursFrom s base n i := by
  simp only [coloursFrom, h.mem]

theorem SameButGhost.commandEvents_eq (i : Instr) (pp : PinPair) : commandEvents i pp s' = commandEvents i pp s := by
  have hbytes : commandBytes i s' = commandBytes i s := by
    cases i with
    | startFrame => rfl
    | sendColor r g b br => rfl
    | endFrame count => rfl
    | write base count br => simp only [commandBytes, arrayColours, h.mem]
  rw [commandEvents, commandEvents, hbytes]

theorem SameButGhost.cmdLength_eq (i : Instr) : s'.cmdLength i = s.cmdLength i := by
  simp only [State.cmdLength, h.program]

theorem SameButGhost.completed (i : Instr) (pp : PinPair) : SameButGhost (completed i pp s) (completed i pp s') where
  config := h.config
  pins := by rw [completed_pins, completed_pins, h.commandEvents_eq, h.pins]
  seq := rfl
  cpc := by rw [completed_cpc, completed_cpc, h.cmdLength_eq, h.cpc]
  trace := by rw [completed_trace, completed_trace, h.commandEvents_eq, h.trace]
  mem := h.mem
  program := h.program
  interface := h.interface
  port := h.port

theorem SameButGhost.stuckState (base : Addr) (count : Count) (br : Brightness) (pp : PinPair) (m j : Nat) :
    SameButGhost (stuckState base count br pp s m j) (stuckState base count br pp s' m j) where
  config := h.config
  pins := by simp only [Machine.stuckState, State.stuckWrite_pins, State.emitAll_pins, State.flagMisuse_pins,
    h.coloursFrom_eq, h.pins]
  seq := by simp only [Machine.stuckState, State.stuckWrite_seq, State.emitAll_port, State.flagMisuse_port, h.port, h.mem]
  cpc := h.cpc
  trace := by simp only [Machine.stuckState, State.stuckWrite_trace, State.emitAll_trace, State.flagMisuse_trace,
    h.coloursFrom_eq, h.trace]
  mem := h.mem
  program := h.program
  interface := h.interface
  port := h.port

theorem SameButGhost.issue_refused {i : Instr} {run : PinPair → Host.Outcome State Fault Refusal} {r : Refusal}
    (hr : s.issue i run = .refused r) : s'.issue i run = .refused r := by
  unfold State.issue at hr ⊢
  rw [h.config, h.stuckAt_eq, h.port, h.interface, h.seq]
  cases hst : s.stuckAt with
  | none => rwa [hst] at hr
  | some a =>
    rw [hst] at hr
    split at hr
    · next hbad => rwa [if_pos hbad]
    · cases hr

theorem SameButGhost.exec_refused {i : Instr} {r : Refusal} (hr : exec i s = .refused r) : exec i s' = .refused r := by
  rcases exec_refused_inv hr with hall | ⟨pp, base, count, br, ha, rfl, ho, rfl⟩
  · obtain ⟨run, e⟩ := exec_eq_issue i s'
    rw [e]; exact h.issue_refused (hall run)
  · exact exec_write_overflow (h.accepts ha) ho

end

/-- Settles O44: acceptance, completion, the first read that is not admitted and the events are the same in both states. -/
theorem ghostStateNeverChangesTheEvents : Obligations.GhostStateNeverChangesTheEvents := by
  intro s s' i h
  refine ⟨fun t ht => ?_, fun a t hf => ?_, fun r hr => h.exec_refused hr⟩
  · obtain ⟨pp, ha, hc, rfl⟩ := exec_next_inv ht
    exact ⟨_, exec_completes (h.accepts ha) (h.completable hc), h.completed i pp⟩
  · rcases exec_fault_inv hf with ⟨b, hb, e⟩ | ⟨pp, base, count, br, m, j, ha, rfl, ho, hs, e⟩
    · cases e
      have hok : pinMapOk s'.config = true := by rw [h.config]; exact pinMapOk_of_exec_fault hf
      exact ⟨s', exec_of_stuckAt hok (h.stuckAt_eq.trans hb) i, h⟩
    · cases e
      exact ⟨_, exec_write_stuck (h.accepts ha) ho (h.stuckRead hs), h.stuckState base count br pp m j⟩

/-! What the pin state does not reach (10_state.md R33). -/

/-- The state with other pins. -/
def State.withPins (s : State) (f : PinFile) : State := { s with pins := f }

theorem completable_withPins {i : Instr} {s : State} (f : PinFile) (hc : Completable i s) : Completable i (s.withPins f) := by
  cases i <;> exact hc

theorem commandEvents_withPins (i : Instr) (pp : PinPair) (s : State) (f : PinFile) :
    commandEvents i pp (s.withPins f) = commandEvents i pp s := by
  cases i <;> rfl

theorem misuseOf_withPins (i : Instr) (pp : PinPair) (s : State) (f : PinFile) :
    misuseOf i pp (s.withPins f) = misuseOf i pp s := rfl

theorem completed_withPins (i : Instr) (pp : PinPair) (s : State) (f : PinFile) :
    completed i pp (s.withPins f) = (completed i pp s).withPins ((commandEvents i pp s).foldl PinFile.apply f) := by
  rw [completed, completed, commandEvents_withPins, misuseOf_withPins]
  generalize commandEvents i pp s = evs
  rfl

/-- Settles O45: the events of a command and everything else it leaves are a function of the state without its pins. -/
theorem pinStateIsNeverRead : Obligations.PinStateIsNeverRead := by
  intro s t i f h
  obtain ⟨pp, ha, hc, rfl⟩ := exec_next_inv h
  have ha' : Accepts (s.withPins f) pp := ⟨ha.pinMap, ha.bound, ha.idle⟩
  have hnext : exec i (s.withPins f) = .next ((completed i pp s).withPins ((commandEvents i pp s).foldl PinFile.apply f)) :=
    completed_withPins i pp s f ▸ exec_completes ha' (completable_withPins f hc)
  exact ⟨_, commandEvents i pp s, hnext, completed_trace i pp s, completed_trace i pp s, rfl⟩

/-! A WRITE that is stuck (20_memory.md R62). -/

section
variable {s : State} {pp : PinPair} {base : Addr} {count : Count} {m j : Nat}

theorem stuckState_stuckAt (hs : StuckRead s base count m j) (br : Brightness) :
    (stuckState base count br pp s m j).stuckAt = some (colourAddr base m j) := by
  simp [stuckState, State.stuckAt, hs.bad]

theorem stuckState_tick (ha : Accepts s pp) (hs : StuckRead s base count m j) (br : Brightness) :
    (stuckState base count br pp s m j).tick = none := by
  unfold stuckState State.stuckWrite
  refine tick_read_stuck _ _ _ _ pp ?_ base count br ?_
  · exact ha.bound
  · simpa using hs.bad

theorem take_arrayColours (hm : m ≤ count.toNat) : (arrayColours s base count).take m = coloursFrom s base m 0 := by
  rw [arrayColours, ← List.map_take, List.take_range, Nat.min_eq_left hm]
  simp only [coloursFrom, Nat.zero_add]

theorem stuckState_trace (hm : m ≤ count.toNat) (br : Brightness) :
    (stuckState base count br pp s m j).trace = s.trace ++ initEvents pp ++ (startFrameBytes ++
      ((arrayColours s base count).take m).flatMap (fun c => ledWord c.r c.g c.b br)).flatMap (transferEvents pp) := by
  rw [take_arrayColours hm]
  simp only [stuckState, State.stuckWrite_trace, State.emitAll_trace, State.flagMisuse_trace, ledBytes, List.append_assoc]

/-- The misuse conditions of a WRITE with at least one LED (42_batch_write.md R166, 60_exceptions.md R190). -/
theorem stuckState_misuse_iff (hs : StuckRead s base count m j) (br : Brightness) :
    (stuckState base count br pp s m j).misuse = true ↔
      s.misuse = true ∨ (s.ghostOf s.port).phase = .streaming ∨ SharedClockStreaming s pp := by
  have hcount : count.toNat ≠ 0 := Nat.ne_of_gt (Nat.zero_lt_of_lt hs.led)
  rw [← sharedClockMisuse_iff]
  simp [stuckState, misuseOf, ownMisuse, hcount]

end

/-- Settles O37: the first read that is not admitted in the order of the reads, and what the state there holds. -/
theorem writeIsStuckAtAReadNotAdmitted : Obligations.WriteIsStuckAtAReadNotAdmitted := by
  refine ⟨fun s a h => by rw [State.memRead, if_pos h], fun s pp base count br m j ha ho hm hj hbad hok => ?_⟩
  have hs : StuckRead s base count m j := ⟨hm, hj, hbad, fun m' j' h => hok m' j' (by omega) (by omega)⟩
  exact ⟨stuckState base count br pp s m j, exec_write_stuck ha ho hs, stuckState_trace hm.le br,
    stuckState_stuckAt hs br, stuckState_tick ha hs br, rfl, by simp [State.final, stuckState], rfl, fun _ => rfl,
    stuckState_misuse_iff hs br⟩

end Sys2Proof.Machine
end

section
/-!
PROOF of the statement that the sequencer, event by event, does what a step does (10_state.md R50).
-/

namespace Sys2Proof.Machine

theorem ticks_trans {a b : Nat} {s t : State} {u : Option State} (h1 : State.ticks a s = some t)
    (h2 : State.ticks b t = u) : State.ticks (a + b) s = u := by
  rw [ticks_add, h1, Option.bind_some, h2]

theorem tick_of_idle {s : State} (h : s.seq = none) : s.tick = none := by
  simp [State.tick, h]

/-! The byte sequences, byte by byte (70_reset_and_hazards.md R210). -/

theorem getElem_endFrameBytes (count : Count) {j : Nat} (hj : j < (endFrameBytes count).length) :
    (endFrameBytes count)[j] = if j = 0 then 0xFF#8 else 0x00#8 := by
  cases j with
  | zero => rfl
  | succ j => simp [endFrameBytes]

section
variable (inst : Nat) (base : Addr) (count : Count) (br : Brightness) (led : Nat) (col : List Byte)

theorem startsLed_write_eq_false {n : Nat} (h : n < 4 ∨ 4 + 4 * count.toNat ≤ n ∨ (n - 4) % 4 ≠ 0) :
    startsLed (.write base count br) n = false := by
  simp only [startsLed, decide_eq_false_iff_not]; omega

/-- Where an LED word comes next, its colour is read first (20_memory.md R64). -/
theorem atByte_led {i : Nat} (hi : i < count.toNat) :
    Running.atByte ⟨inst, .write base count br, .read, led, col⟩ (4 + 4 * i) =
      some ⟨inst, .write base count br, .read, i, []⟩ := by
  have hlen : ¬ byteCount (.write base count br) ≤ 4 + 4 * i := by simp only [byteCount, frameLength]; omega
  have hstarts : startsLed (.write base count br) (4 + 4 * i) = true := by
    simp only [startsLed, decide_eq_true_eq]; omega
  rw [Running.atByte, if_neg hlen, if_pos hstarts, show (4 + 4 * i - 4) / 4 = i by omega]

theorem byteAt_write_start {n : Nat} (hn : n < 4) :
    Running.byteAt ⟨inst, .write base count br, .read, led, col⟩ n = 0x00#8 := by
  simp [Running.byteAt, hn]

theorem byteAt_write_led {i j : Nat} (hi : i < count.toNat) (hj : j < 4) (r g b : Byte) :
    Running.byteAt ⟨inst, .write base count br, .read, led, [r, g, b]⟩ (4 + 4 * i + j) =
      (ledWord r g b br).getD j 0x00#8 := by
  simp only [Running.byteAt]
  rw [if_neg (by omega), if_pos (by omega), show (4 + 4 * i + j - 4) % 4 = j by omega]
  rfl

theorem byteAt_write_end (j : Nat) :
    Running.byteAt ⟨inst, .write base count br, .read, led, col⟩ (4 + 4 * count.toNat + j) =
      if j = 0 then 0xFF#8 else 0x00#8 := by
  simp only [Running.byteAt]
  rw [if_neg (by omega), if_neg (by omega)]
  simp

end

/-! The actions of a command. -/

section
variable (s : State) (inst : Nat) (led : Nat) (col : List Byte) (pp : PinPair) (hb : s.config.bindings[inst]? = some pp)
include hb

/-- The last bytes of a command, with no colour read among them, and its completion. -/
theorem ticks_last_bytes (cmd : Instr) (n : Nat) (bytes : List Byte) (hn : n + bytes.length = byteCount cmd)
    (hled : ∀ j, n ≤ j → startsLed cmd j = false)
    (hbytes : ∀ j (hj : j < bytes.length), Running.byteAt ⟨inst, cmd, .read, led, col⟩ (n + j) = bytes[j]) :
    State.ticks (24 * bytes.length) (s.goOn cmd (Running.atByte ⟨inst, cmd, .read, led, col⟩ n)) =
      some ((s.transferAll pp bytes).complete cmd) := by
  have hmap : ((List.range bytes.length).map fun j => Running.byteAt ⟨inst, cmd, .read, led, col⟩ (n + j)) = bytes :=
    List.ext_getElem (by simp) fun j h1 h2 => by simpa using hbytes j h2
  have hend : Running.atByte ⟨inst, cmd, .read, led, col⟩ (n + bytes.length) = none := by
    rw [Running.atByte, if_pos hn.ge]
  rw [ticks_bytes s inst cmd led col pp hb bytes.length n (by omega) fun j hj _ => hled j hj, hmap, hend]
  rfl

/-- The bytes of the end frame, as END_FRAME and WRITE make them. -/
theorem ticks_endFrameBytes (cmd : Instr) (n : Nat) (count : Count) (hn : n + (6 + count.toNat / 16) = byteCount cmd)
    (hled : ∀ j, n ≤ j → startsLed cmd j = false)
    (hbytes : ∀ j, Running.byteAt ⟨inst, cmd, .read, led, col⟩ (n + j) = if j = 0 then 0xFF#8 else 0x00#8) :
    State.ticks (24 * (6 + count.toNat / 16)) (s.goOn cmd (Running.atByte ⟨inst, cmd, .read, led, col⟩ n)) =
      some ((s.transferAll pp (endFrameBytes count)).complete cmd) := by
  rw [← length_endFrameBytes] at hn ⊢
  exact ticks_last_bytes s inst led col pp hb cmd n _ hn hled fun j hj => by rw [hbytes, getElem_endFrameBytes]

end

section
variable (s : State) (inst : Nat) (base : Addr) (count : Count) (br : Brightness) (pp : PinPair)
  (hb : s.config.bindings[inst]? = some pp)
include hb

/-- WRITE up to its first LED word. -/
theorem ticks_write_start :
    State.ticks 100 (s.setSeq (some ⟨inst, .write base count br, .init 0, 0, []⟩)) =
      some (((s.init pp).transferAll pp startFrameBytes).goOn (.write base count br)
        (Running.atByte ⟨inst, .write base count br, .read, 0, []⟩ (4 + 4 * 0))) := by
  refine ticks_trans (a := 4) (b := 24 * 4) (ticks_init s inst _ 0 [] pp hb) ?_
  have hled : ∀ j, 0 ≤ j → j < 0 + 4 → startsLed (.write base count br) j = false := fun j _ hj =>
    startsLed_write_eq_false base count br (.inl (by omega))
  rw [ticks_bytes (s.init pp) inst (.write base count br) 0 [] pp hb 4 0 (by simp only [byteCount, frameLength]; omega) hled]
  have hmap : ((List.range 4).map fun j => Running.byteAt ⟨inst, .write base count br, .read, 0, []⟩ (0 + j)) =
      startFrameBytes := by
    rw [List.map_congr_left (g := fun _ => 0x00#8) fun j hj =>
      byteAt_write_start inst base count br 0 [] (by simpa using hj)]
    rfl
  rw [hmap]

/-- One LED of WRITE: three colour reads and the four bytes of its LED word. -/
theorem ticks_led (led : Nat) (col : List Byte) (i : Nat) (hi : i < count.toNat)
    (hok : ∀ j, j < 3 → admits s.config (colourAddr base i j) = true) :
    ∃ col', State.ticks 99 (s.goOn (.write base count br)
        (Running.atByte ⟨inst, .write base count br, .read, led, col⟩ (4 + 4 * i))) =
      some ((s.transferAll pp (ledBytes br (coloursFrom s base 1 i))).goOn (.write base count br)
        (Running.atByte ⟨inst, .write base count br, .read, i, col'⟩ (4 + 4 * (i + 1)))) := by
  refine ⟨(List.range 3).map fun j => hostByte s.mem (colourAddr base i j), ?_⟩
  rw [atByte_led inst base count br led col hi]
  refine ticks_trans (a := 3) (b := 24 + 24 * 3) (ticks_reads s inst i pp hb base count br 3 le_rfl hok) ?_
  rw [if_pos rfl]
  refine ticks_trans (ticks_byte s inst (.write base count br) i _ pp hb (4 + 4 * i)) ?_
  have hled : ∀ j, 4 + 4 * i + 1 ≤ j → j < 4 + 4 * i + 1 + 3 → startsLed (.write base count br) j = false :=
    fun j _ _ => startsLed_write_eq_false base count br (.inr (.inr (by omega)))
  rw [ticks_bytes _ inst (.write base count br) i _ pp (by simpa using hb) 3 (4 + 4 * i + 1)
    (by simp only [byteCount, frameLength]; omega) hled, State.transferAll_append]
  have hbyte : ∀ j, j < 4 → Running.byteAt ⟨inst, .write base count br, .read, i,
      (List.range 3).map fun j => hostByte s.mem (colourAddr base i j)⟩ (4 + 4 * i + j) =
      (ledWord (hostByte s.mem (colourAddr base i 0)) (hostByte s.mem (colourAddr base i 1))
        (hostByte s.mem (colourAddr base i 2)) br).getD j 0x00#8 :=
    fun j hj => byteAt_write_led inst base count br i hi hj _ _ _
  have h0 := hbyte 0 (by omega)
  have hrest := fun j (hj : j < 3) => hbyte (1 + j) (by omega)
  simp only [← Nat.add_assoc] at hrest
  rw [Nat.add_zero] at h0
  rw [h0, List.map_congr_left fun j hj => hrest j (List.mem_range.mp hj), coloursFrom_succ]
  rfl

/-- `n` LEDs of WRITE, from number `i` on. -/
theorem ticks_leds (n i : Nat) (led : Nat) (col : List Byte) (hi : i + n ≤ count.toNat)
    (hok : ∀ m j, m < n → j < 3 → admits s.config (colourAddr base (i + m) j) = true) :
    ∃ led' col', State.ticks (99 * n) (s.goOn (.write base count br)
        (Running.atByte ⟨inst, .write base count br, .read, led, col⟩ (4 + 4 * i))) =
      some ((s.transferAll pp (ledBytes br (coloursFrom s base n i))).goOn (.write base count br)
        (Running.atByte ⟨inst, .write base count br, .read, led', col'⟩ (4 + 4 * (i + n)))) := by
  induction n generalizing s i led col with
  | zero => exact ⟨led, col, by simp [State.ticks, coloursFrom, ledBytes, State.transferAll, State.emitAll_nil]⟩
  | succ n ih =>
    obtain ⟨col1, h1⟩ := ticks_led s inst base count br pp hb led col i (by omega)
      fun j hj => hok 0 j (Nat.zero_lt_succ n) hj
    obtain ⟨led', col', h2⟩ := ih (s.transferAll pp (ledBytes br (coloursFrom s base 1 i))) (by simpa using hb) (i + 1) i
      col1 (by omega) fun m j hm hj => by
        rw [State.transferAll_config, Nat.add_assoc, Nat.add_comm 1]; exact hok (m + 1) j (by omega) hj
    refine ⟨led', col', ?_⟩
    rw [show 99 * (n + 1) = 99 + 99 * n by omega, ticks_trans h1 h2, State.transferAll_append, coloursFrom_transferAll,
      coloursFrom_succ s base n i, coloursFrom_succ s base 0 i, ledBytes_cons, ledBytes_cons,
      show i + 1 + n = i + (n + 1) by omega]
    simp [coloursFrom, ledBytes]

end

/-! Whole commands. -/

theorem completed_of_runsInit {i : Instr} (h : runsInit i = true) (pp : PinPair) (s : State) :
    completed i pp s = (((s.flagMisuse (misuseOf i pp s)).init pp).transferAll pp (commandBytes i s)).complete i := by
  rw [completed, commandEvents, if_pos h, ← State.emitAll_emitAll, State.init_eq_emitAll, State.transferAll_eq_emitAll]

theorem completed_of_not_runsInit {i : Instr} (h : runsInit i = false) (pp : PinPair) (s : State) :
    completed i pp s = ((s.flagMisuse (misuseOf i pp s)).transferAll pp (commandBytes i s)).complete i := by
  rw [completed, commandEvents, h, if_neg Bool.false_ne_true, List.nil_append, State.transferAll_eq_emitAll]

section
variable {s : State} {pp : PinPair} (ha : Accepts s pp)
include ha

theorem ticks_startFrame : State.ticks 100 (s.accept .startFrame pp) = some (completed .startFrame pp s) := by
  refine ticks_trans (a := 4) (b := 24 * 4) (ticks_init _ s.port .startFrame 0 [] pp (by exact ha.bound)) ?_
  rw [completed_of_runsInit rfl]
  refine ticks_last_bytes _ s.port 0 [] pp (by exact ha.bound) .startFrame 0 startFrameBytes rfl (fun _ _ => rfl) fun j hj => ?_
  exact (List.eq_of_mem_replicate (n := 4) (List.getElem_mem hj)).symm

theorem ticks_sendColor (r g b : Byte) (br : Brightness) :
    State.ticks 96 (s.accept (.sendColor r g b br) pp) = some (completed (.sendColor r g b br) pp s) := by
  rw [completed_of_not_runsInit rfl]
  refine ticks_last_bytes _ s.port 0 [] pp (by exact ha.bound) (.sendColor r g b br) 0 (ledWord r g b br) rfl (fun _ _ => rfl)
    fun j hj => ?_
  rw [Nat.zero_add]
  exact List.getD_eq_getElem (ledWord r g b br) 0x00#8 hj

theorem ticks_endFrame (count : Count) : State.ticks (24 * (6 + count.toNat / 16)) (s.accept (.endFrame count) pp) =
    some (completed (.endFrame count) pp s) := by
  have hlen : 0 + (6 + count.toNat / 16) = byteCount (.endFrame count) := by simp only [byteCount, endZeros]; omega
  have hfirst : Running.atByte ⟨s.port, .endFrame count, .read, 0, []⟩ 0 =
      some (Running.accepted s.port (.endFrame count)) := by
    rw [Running.atByte, if_neg (by rw [← hlen]; omega)]; rfl
  have hbytes := ticks_endFrameBytes (s.flagMisuse (misuseOf (.endFrame count) pp s)) s.port 0 [] pp ha.bound
    (.endFrame count) 0 count hlen (fun _ _ => rfl) fun j => by rw [Nat.zero_add, Running.byteAt]
  rw [hfirst] at hbytes
  rw [completed_of_not_runsInit rfl]
  exact hbytes

/-- The first `m` LEDs of a WRITE. -/
theorem ticks_write_leds (base : Addr) (count : Count) (br : Brightness) {m : Nat} (hm : m ≤ count.toNat)
    (hok : ∀ m' j, m' < m → j < 3 → admits s.config (colourAddr base m' j) = true) :
    ∃ led col, State.ticks (100 + 99 * m) (s.accept (.write base count br) pp) =
      some ((((s.flagMisuse (misuseOf (.write base count br) pp s)).init pp).transferAll pp
        (startFrameBytes ++ ledBytes br (coloursFrom s base m 0))).goOn (.write base count br)
        (Running.atByte ⟨s.port, .write base count br, .read, led, col⟩ (4 + 4 * m))) := by
  obtain ⟨led, col, h⟩ := ticks_leds (((s.flagMisuse (misuseOf (.write base count br) pp s)).init pp).transferAll pp
    startFrameBytes) s.port base count br pp (by exact ha.bound) m 0 0 [] (by omega)
    fun m' j hm' hj => by rw [Nat.zero_add]; exact hok m' j hm' hj
  refine ⟨led, col, ?_⟩
  rw [State.transferAll_append, Nat.zero_add] at h
  exact ticks_trans (ticks_write_start _ s.port base count br pp (by exact ha.bound)) h

theorem ticks_write (base : Addr) (count : Count) (br : Brightness) (hok : arrayAdmitted s base count) :
    State.ticks (100 + 99 * count.toNat + 24 * (6 + count.toNat / 16)) (s.accept (.write base count br) pp) =
      some (completed (.write base count br) pp s) := by
  obtain ⟨led, col, h⟩ := ticks_write_leds ha base count br le_rfl hok
  refine ticks_trans h ?_
  rw [completed_of_runsInit rfl, commandBytes, frameBytes, ← State.transferAll_append _ pp _ (endFrameBytes count), ← coloursFrom_zero]
  refine ticks_endFrameBytes _ s.port led col pp (by exact ha.bound) _ _ count ?_ (fun j hj => ?_)
    (byteAt_write_end s.port base count br led col)
  · simp only [byteCount, frameLength]; omega
  · exact startsLed_write_eq_false base count br (.inr (.inl hj))

/-- A WRITE that is stuck at byte `j` of LED `m` has read the bytes before it and sent the LED words before it. -/
theorem ticks_write_stuck (base : Addr) (count : Count) (br : Brightness) {m j : Nat} (hs : StuckRead s base count m j) :
    State.ticks (100 + 99 * m + j) (s.accept (.write base count br) pp) = some (stuckState base count br pp s m j) := by
  obtain ⟨led, col, h⟩ := ticks_write_leds ha base count br hs.led.le fun m' j' hm' hj' => hs.ok m' j' (.inl ⟨hm', hj'⟩)
  refine ticks_trans h ?_
  rw [atByte_led s.port base count br led col hs.led, State.goOn]
  refine (ticks_reads _ s.port m pp ?_ base count br j hs.byte.le ?_).trans ?_
  · exact ha.bound
  · exact fun j' hj' => hs.ok m j' (.inr ⟨rfl, hj'⟩)
  · rw [if_neg (Nat.ne_of_lt hs.byte), State.transferAll_eq_emitAll, State.init_eq_emitAll, State.emitAll_emitAll]
    rfl

end

/-- Settles O58: each command action by action; a WRITE by induction over its LEDs. -/
theorem eventByEventIsTheSameAsOneStep : Obligations.EventByEventIsTheSameAsOneStep := by
  intro s i pp ha
  refine ⟨fun t h => ?_, fun a t h => ?_⟩
  · obtain ⟨pp', ha', hc, rfl⟩ := exec_next_inv h
    obtain rfl := accepts_bound_eq ha ha'.bound
    refine ⟨?_, tick_of_idle (completed_seq i _ s)⟩
    cases i with
    | startFrame => exact ticks_startFrame ha
    | sendColor r g b br => exact ticks_sendColor ha r g b br
    | endFrame count => exact ticks_endFrame ha count
    | write base count br =>
      rw [← ticks_write ha base count br hc.2]
      congr 1
      simp only [eventCount, readCount]; omega
  · rcases exec_fault_inv h with ⟨b, hb, -⟩ | ⟨pp', base, count, br, m, j, ha', rfl, -, hs, e⟩
    · rw [State.stuckAt_of_idle s ha.idle] at hb; cases hb
    · obtain rfl := accepts_bound_eq ha ha'.bound
      cases e
      exact ⟨_, ticks_write_stuck ha base count br hs, stuckState_tick ha hs br⟩

end Sys2Proof.Machine
end

section
/-!
PROOFS of the statements about host memory (20_memory.md): the top of memory (R63), what a command reads and writes (R60, R61,
R71), and the host's stores (R60, R71).
-/

namespace Sys2Proof.Machine

/-! The top of memory (20_memory.md R63). -/

theorem addrOverflow_iff (base : Addr) (count : Count) :
    addrOverflow base count = true ↔ 1 ≤ count.toNat ∧ base.toNat + 3 * count.toNat - 1 > 2 ^ 32 - 1 :=
  decide_eq_true_iff

/-- The acceptance checks never answer this refusal, so an accepted command gets it from WRITE's own check alone. -/
theorem exec_write_refused_overflow_iff {s : State} {pp : PinPair} (h : Accepts s pp) (base : Addr) (count : Count)
    (br : Brightness) : exec (.write base count br) s = .refused .addrOverflow ↔ addrOverflow base count = true := by
  refine ⟨fun hr => ?_, exec_write_overflow h⟩
  rcases exec_refused_inv hr with hall | ⟨_, _, _, _, _, e, ho, -⟩
  · have hrun := hall fun _ => .next s
    rw [issue_accepts h (.inr rfl)] at hrun
    cases hrun
  · cases e; exact ho

/-- An array that is not refused lies below the top of memory, byte by byte. -/
theorem colourAddr_lt_of_no_overflow {base : Addr} {count : Count} (h : addrOverflow base count ≠ true) {i j : Nat}
    (hi : i < count.toNat) (hj : j < 3) : colourAddr base i j < 2 ^ 32 := by
  rw [ne_eq, addrOverflow_iff] at h
  unfold colourAddr
  omega

/-- With no colour the base is ignored: there is no array to fit below the top or to read. -/
theorem completable_write_of_count_zero {count : Count} (h : count.toNat = 0) (base : Addr) (br : Brightness) (s : State) :
    Completable (.write base count br) s := by
  refine ⟨?_, fun i j hi _ => by omega⟩
  rw [← Bool.not_eq_true, addrOverflow_iff]
  omega

theorem commandEvents_write_of_count_zero {count : Count} (h : count.toNat = 0) (base base' : Addr) (br : Brightness)
    (pp : PinPair) (s : State) : commandEvents (.write base' count br) pp s = commandEvents (.write base count br) pp s := by
  simp [commandEvents, runsInit, commandBytes, arrayColours, h]

/-- Settles O36: WRITE's own check is R63's condition, and with no colour the event list does not depend on the base. -/
theorem arrayPastTheTopIsRefused : Obligations.ArrayPastTheTopIsRefused := by
  intro s pp base count br ha
  rw [← addrOverflow_iff]
  refine ⟨exec_write_refused_overflow_iff ha base count br, fun h i j => colourAddr_lt_of_no_overflow h, fun h => ?_⟩
  refine ⟨_, exec_completes ha (completable_write_of_count_zero h base br s), fun base' => ?_⟩
  refine ⟨_, exec_completes ha (completable_write_of_count_zero h base' br s), ?_⟩
  rw [completed_trace, completed_trace, commandEvents_write_of_count_zero h base base']

/-! What a command reads (20_memory.md R61, R71). -/

/-- The state with another host memory. -/
def State.withMem (s : State) (mem : List Host.Cell) : State := { s with mem := mem }

/-- Two memories hold the same bytes in the array of a command; only a WRITE has an array. -/
def SameArray (i : Instr) (mem mem' : List Host.Cell) : Prop :=
  ∀ base count br, i = .write base count br → ∀ n j, n < count.toNat → j < 3 →
    hostByte mem' (colourAddr base n j) = hostByte mem (colourAddr base n j)

section
variable {s : State} {i : Instr} {mem : List Host.Cell}

theorem completable_withMem (hc : Completable i s) : Completable i (s.withMem mem) := by
  cases i <;> exact hc

theorem arrayColours_withMem {base : Addr} {count : Count} {br : Brightness}
    (h : SameArray (.write base count br) s.mem mem) : arrayColours (s.withMem mem) base count = arrayColours s base count := by
  refine List.map_congr_left fun n hn => ?_
  have hbyte := h base count br rfl n
  have hlt : n < count.toNat := List.mem_range.mp hn
  simp only [State.withMem, hbyte 0 hlt (by decide), hbyte 1 hlt (by decide), hbyte 2 hlt (by decide)]

theorem commandBytes_withMem (h : SameArray i s.mem mem) : commandBytes i (s.withMem mem) = commandBytes i s := by
  cases i with
  | startFrame => rfl
  | sendColor r g b br => rfl
  | endFrame count => rfl
  | write base count br => rw [commandBytes, commandBytes, arrayColours_withMem h]

theorem completed_withMem (h : SameArray i s.mem mem) (pp : PinPair) :
    completed i pp (s.withMem mem) = (completed i pp s).withMem mem := by
  have hevents : commandEvents i pp (s.withMem mem) = commandEvents i pp s := by
    rw [commandEvents, commandEvents, commandBytes_withMem h]
  rw [completed, completed, hevents]
  generalize commandEvents i pp s = evs
  rfl

end

/-- Settles O39: acceptance and completion do not look at memory, and the bytes sent look at the array alone. -/
theorem commandsReadOnlyTheirArray : Obligations.CommandsReadOnlyTheirArray := by
  intro s t i mem' h harray
  obtain ⟨pp, ha, hc, rfl⟩ := exec_next_inv h
  have ha' : Accepts (s.withMem mem') pp := ⟨ha.pinMap, ha.bound, ha.idle⟩
  exact (exec_completes ha' (completable_withMem hc)).trans (congrArg _ (completed_withMem harray pp))

/-! Nothing writes host memory (20_memory.md R60). -/

@[simp] theorem State.goOn_mem (s : State) (i : Instr) (r : Option Running) : (s.goOn i r).mem = s.mem := by
  cases r <;> rfl

theorem stuckState_mem (base : Addr) (count : Count) (br : Brightness) (pp : PinPair) (s : State) (m j : Nat) :
    (stuckState base count br pp s m j).mem = s.mem := rfl

/-- An action emits events (a colour read emits none) and then the command goes on. -/
theorem tick_inv {s t : State} (h : s.tick = some t) : ∃ evs i r, t = (s.emitAll evs).goOn i r := by
  unfold State.tick at h
  split at h
  · cases h
  · split at h
    · cases h
    · split at h
      case h_1 => cases h; exact ⟨_, _, _, rfl⟩
      case h_2 =>
        split at h
        · split at h
          · cases h
          · cases h; exact ⟨[], _, _, by rw [State.emitAll_nil]⟩
        · cases h
      case h_3 | h_4 | h_5 => cases h; exact ⟨_, _, _, rfl⟩

/-- Settles O40: neither a completed command nor a stuck WRITE nor an action of the sequencer has a store. -/
theorem hostMemoryIsNeverWritten : Obligations.HostMemoryIsNeverWritten := by
  refine fun s => ⟨fun t h => ?_, fun a t h => ?_, fun t h => ?_⟩
  · obtain ⟨k, i, pp, -, -, -, rfl⟩ := step_next_inv h
    rw [completed_mem, State.setPort_mem]
  · rcases step_stuck_inv h with ⟨-, rfl⟩ | ⟨k, pp, base, count, br, m, j, -, -, -, -, -, rfl⟩
    · rfl
    · rw [stuckState_mem, State.setPort_mem]
  · obtain ⟨evs, i, r, rfl⟩ := tick_inv h
    rw [State.goOn_mem, State.emitAll_mem]

/-! The host's stores (20_memory.md R60, R71). -/

theorem hostByte_hostStore (s : State) (addr : Addr) (v : Byte) (a : Nat) :
    hostByte (s.hostStore addr v).mem a = if a = addr.toNat then v else hostByte s.mem a :=
  load_store 0#8 a addr.toNat v s.mem

/-- In a canonical table the entries are the keys that do not read as the default, with what they read as. -/
theorem Canonical.mem_iff {β : Type} {d : β} {l : List (Nat × β)} (h : Canonical d l) (e : Nat × β) :
    e ∈ l ↔ load d e.1 l = e.2 ∧ e.2 ≠ d := by
  refine ⟨fun he => ⟨by rw [load, find?_of_mem h.1 he, Option.getD_some], h.2 e he⟩, fun ⟨hload, hne⟩ => ?_⟩
  cases hf : find? e.1 l with
  | none => exact absurd (by rw [← hload, load, hf, Option.getD_none]) hne
  | some v =>
    rw [load, hf, Option.getD_some] at hload
    subst hload
    exact mem_of_find? hf

/-- A canonical table is determined by what its keys read as. -/
theorem Canonical.ext {β : Type} {d : β} {l l' : List (Nat × β)} (h : Canonical d l) (h' : Canonical d l')
    (hload : ∀ k, load d k l = load d k l') : l = l' := by
  have : Std.Irrefl fun a b : Nat × β => a.1 < b.1 := ⟨fun a => Nat.lt_irrefl a.1⟩
  have : Std.Antisymm fun a b : Nat × β => a.1 < b.1 := ⟨fun a b hab hba => absurd hba (Nat.lt_asymm hab)⟩
  exact List.Pairwise.eq_of_mem_iff h.1 h'.1 fun e => by rw [h.mem_iff, h'.mem_iff, hload]

/-- Settles O59: read after write in the table of host memory, and that a canonical table is determined by its reads. -/
theorem hostStoresAreSeen : Obligations.HostStoresAreSeen := by
  refine ⟨fun s addr v => ⟨?_, fun a ha => ?_, hostStore_wf addr v⟩, fun m m' h h' => Canonical.ext h.1 h'.1⟩
  · rw [hostByte_hostStore, if_pos rfl]
  · rw [hostByte_hostStore, if_neg ha]

end Sys2Proof.Machine
end

section
/-!
PROOFS of the statements about the decoder, the encoder and the step that reads a command in either form (30_encoding.md R90 to
R99).
-/

namespace Sys2Proof.Machine

/-! The decoder on what the encoder writes (30_encoding.md R92 to R95, R98). -/

theorem decode_encode {i : Instr} {w : Word} {rest tl : List Word} (h : encode i ++ rest = w :: tl) :
    decode w tl.head? = .ok (i, i.wordCount) := by
  cases i with
  | startFrame => cases h; rfl
  | sendColor r g b br =>
    cases h
    simp [decode, opField_color, redField_color, greenField_color, blueField_color, brField_color, Instr.wordCount]
  | endFrame count =>
    cases h
    simp only [decode, opField_end, reserved_end, countField_end, Instr.wordCount]
    rfl
  | write base count br =>
    cases h; simp [decode, opField_write, redField_write, countField_write, brField_write, Instr.wordCount]

theorem length_encode (i : Instr) : (encode i).length = i.wordCount := by
  cases i <;> rfl

/-- Settles O1: the fields of each format are read back as they were written. -/
theorem decodeOfEncodeIsTheCommand : Obligations.DecodeOfEncodeIsTheCommand :=
  fun i _ _ _ h => ⟨decode_encode h, length_encode i⟩

/-! A word is its fields (30_encoding.md R91 to R95). -/

theorem opField_append_brField_append_redField (w : Word) :
    opField w ++ brField w ++ redField w = w.extractLsb' 16 16 := by
  have h24 : opField w ++ brField w = w.extractLsb' 24 8 := BitVec.extractLsb'_append_extractLsb'_eq_extractLsb' rfl
  rw [h24]
  exact BitVec.extractLsb'_append_extractLsb'_eq_extractLsb' rfl

/-- Format FS: OP and 29 bits. -/
theorem startFields_append (w : Word) : opField w ++ w.extractLsb' 0 29 = w :=
  (BitVec.extractLsb'_append_extractLsb'_eq_extractLsb' rfl).trans BitVec.extractLsb'_eq_self

/-- Format FC: OP, brightness, red, green, blue. -/
theorem colorFields_append (w : Word) : opField w ++ brField w ++ redField w ++ greenField w ++ blueField w = w := by
  have h8 : w.extractLsb' 16 16 ++ greenField w = w.extractLsb' 8 24 :=
    BitVec.extractLsb'_append_extractLsb'_eq_extractLsb' rfl
  rw [opField_append_brField_append_redField, h8]
  exact (BitVec.extractLsb'_append_extractLsb'_eq_extractLsb' rfl).trans BitVec.extractLsb'_eq_self

/-- Format FE: OP, 13 reserved bits, count. -/
theorem endFields_append (w : Word) : opField w ++ w.extractLsb' 16 13 ++ countField w = w := by
  have h16 : opField w ++ w.extractLsb' 16 13 = w.extractLsb' 16 16 :=
    BitVec.extractLsb'_append_extractLsb'_eq_extractLsb' rfl
  rw [h16]
  exact (BitVec.extractLsb'_append_extractLsb'_eq_extractLsb' rfl).trans BitVec.extractLsb'_eq_self

/-- Format FW: OP, brightness, 8 reserved bits, count. -/
theorem writeFields_append (w : Word) : opField w ++ brField w ++ redField w ++ countField w = w := by
  rw [opField_append_brField_append_redField]
  exact (BitVec.extractLsb'_append_extractLsb'_eq_extractLsb' rfl).trans BitVec.extractLsb'_eq_self

theorem opField_eq_iff (w : Word) (k : BitVec 3) : opField w = k ↔ w.toNat / 2 ^ 29 = k.toNat := by
  rw [← BitVec.toNat_inj, toNat_opField]

/-- Settles O2: in each format the word is put together again from its fields. -/
theorem encodeOfDecodeIsTheWords : Obligations.EncodeOfDecodeIsTheWords := by
  intro w next i n h
  rcases decode_cases w next with ⟨hop, hz, e⟩ | ⟨hop, e⟩ | ⟨hop, hz, e⟩ | ⟨-, -, -, e⟩ | ⟨hop, hz, b, rfl, e⟩ | ⟨-, e⟩
  all_goals rw [e] at h; cases h
  · refine ⟨rfl, congrArg (· :: []) ?_⟩
    have hf := startFields_append w
    rw [(opField_eq_iff w 1#3).mpr hop, (startReserved_eq_zero w).mpr hz] at hf
    exact hf
  · refine ⟨rfl, congrArg (· :: []) ?_⟩
    have hf := colorFields_append w
    rw [(opField_eq_iff w 2#3).mpr hop] at hf
    exact hf
  · refine ⟨rfl, congrArg (· :: []) ?_⟩
    have hf := endFields_append w
    rw [(opField_eq_iff w 3#3).mpr hop, (endReserved_eq_zero w).mpr hz] at hf
    exact hf
  · refine ⟨rfl, congrArg (· :: [b]) ?_⟩
    have hf := writeFields_append w
    rw [(opField_eq_iff w 4#3).mpr hop, (redField_eq_zero w).mpr hz] at hf
    exact hf

/-! The reserved words (30_encoding.md R97). -/

/-- The reserved words are those that fit no format. -/
theorem reservedWord_iff (w : Word) : ReservedWord w ↔
    ¬ (w.toNat / 2 ^ 29 = 1 ∧ w.toNat % 2 ^ 29 = 0) ∧ w.toNat / 2 ^ 29 ≠ 2 ∧
    ¬ (w.toNat / 2 ^ 29 = 3 ∧ w.toNat / 2 ^ 16 % 2 ^ 13 = 0) ∧
    ¬ (w.toNat / 2 ^ 29 = 4 ∧ w.toNat / 2 ^ 16 % 2 ^ 8 = 0) := by
  have hlt : w.toNat / 2 ^ 29 < 8 := by have := w.isLt; omega
  simp only [ReservedWord, List.mem_cons, List.not_mem_nil, or_false]
  omega

theorem decode_eq_reservedEncoding_iff (w : Word) (next : Option Word) :
    decode w next = .error .reservedEncoding ↔ ReservedWord w := by
  rw [reservedWord_iff]
  rcases decode_cases w next with ⟨hop, hz, e⟩ | ⟨hop, e⟩ | ⟨hop, hz, e⟩ | ⟨hop, hz, -, e⟩ | ⟨hop, hz, b, -, e⟩ | ⟨h, e⟩
  case inr.inr.inr.inr.inr => exact iff_of_true e ((reservedWord_iff w).mp h)
  all_goals exact iff_of_false (by rw [e]; nofun) (by omega)

/-! A step on a command that is read or rejected (60_exceptions.md R179). -/

theorem step_of_fetch_rejected {s : State} {r : Refusal} (h : Steps s) (hf : s.fetch = .rejected r) :
    step s = .refused r := by
  simp [step, h.pinMap, h.free, hf]

theorem fetch_of_words {s : State} {ws : List PortWord} (hp : s.program = .words ws) :
    s.fetch = fetchWord ws s.cpc := by
  simp only [State.fetch, hp]

theorem fetch_of_records {s : State} {rs : List PortRecord} (hp : s.program = .records rs) :
    s.fetch = fetchRecord rs s.cpc := by
  simp only [State.fetch, hp]

theorem decodeRefusal_eq_reservedEncoding_iff (e : DecodeError) :
    decodeRefusal e = .reservedEncoding ↔ e = .reservedEncoding := by
  cases e <;> simp [decodeRefusal]

/-- A reserved encoding is the decoder's refusal; no command answers it. -/
theorem exec_ne_reservedEncoding (i : Instr) (s : State) : exec i s ≠ .refused .reservedEncoding := by
  intro h
  rcases exec_refused_inv h with hall | ⟨-, -, -, -, -, -, -, hr⟩
  · have hi := hall fun _ => .fault .runEnded
    rcases issue_cases s i fun _ => .fault .runEnded with ⟨-, e⟩ | ⟨-, a, -, e⟩ | ⟨-, -, -, e⟩ | ⟨-, -, -, -, -, e⟩ |
      ⟨-, -, -, -, -, e⟩ | ⟨pp, -, -, e⟩
    all_goals rw [e] at hi; cases hi
  · cases hr

/-- Settles O3: the step's answer is the decoder's, since no command refuses as a reserved encoding. -/
theorem reservedEncodingsAreRefused : Obligations.ReservedEncodingsAreRefused := by
  refine ⟨fun s ws w hs hp hw => ?_, fun w next hw => ?_, .inl (by decide)⟩
  · rw [← decode_eq_reservedEncoding_iff w.word (secondWord ws s.cpc w)]
    cases hd : decode w.word (secondWord ws s.cpc w) with
    | ok c =>
      rw [step_of_fetch_command hs ((fetch_of_words hp).trans (fetchWord_of_decode hw hd))]
      exact iff_of_false (exec_ne_reservedEncoding _ _) nofun
    | error e =>
      rw [step_of_fetch_rejected hs ((fetch_of_words hp).trans (fetchWord_of_decode_error hw hd))]
      simp [decodeRefusal_eq_reservedEncoding_iff]
  · rcases decode_cases w (some next) with ⟨-, -, e⟩ | ⟨-, e⟩ | ⟨-, -, e⟩ | ⟨-, -, hn, -⟩ | ⟨-, -, b, -, e⟩ | ⟨hr, -⟩
    · exact ⟨_, e⟩
    · exact ⟨_, e⟩
    · exact ⟨_, e⟩
    · cases hn
    · exact ⟨_, e⟩
    · exact absurd hr hw

/-! The opcode map (30_encoding.md R99). -/

/-- A mask tests each part of a word on its own. -/
theorem append_and_append_eq_append_iff {m n : ℕ} (a ma c : BitVec m) (b mb d : BitVec n) :
    (a ++ b) &&& (ma ++ mb) = c ++ d ↔ a &&& ma = c ∧ b &&& mb = d := by
  rw [BitVec.and_append]
  refine ⟨fun h => ⟨?_, ?_⟩, fun ⟨h1, h2⟩ => by rw [h1, h2]⟩
  · simpa only [BitVec.extractLsb'_append_eq_left] using congrArg (BitVec.extractLsb' n m) h
  · simpa only [BitVec.extractLsb'_append_eq_right] using congrArg (BitVec.extractLsb' 0 n) h

/-- The START_FRAME row. -/
theorem matches_startFrame_iff (w : Word) :
    w &&& 0xFFFFFFFF#32 = 0x20000000#32 ↔ w.toNat / 2 ^ 29 = 1 ∧ w.toNat % 2 ^ 29 = 0 := by
  rw [← startReserved_eq_zero]
  conv_lhs => rw [← startFields_append w]
  refine (append_and_append_eq_append_iff (opField w) (BitVec.allOnes 3) 1#3 _ (BitVec.allOnes 29) 0#29).trans ?_
  rw [BitVec.and_allOnes, BitVec.and_allOnes, opField_eq_iff]; rfl

/-- The SEND_COLOR row. -/
theorem matches_sendColor_iff (w : Word) : w &&& 0xE0000000#32 = 0x40000000#32 ↔ w.toNat / 2 ^ 29 = 2 := by
  conv_lhs => rw [← startFields_append w]
  refine (append_and_append_eq_append_iff (opField w) (BitVec.allOnes 3) 2#3 _ 0#29 0#29).trans ?_
  rw [BitVec.and_allOnes, opField_eq_iff, BitVec.and_zero]
  exact and_iff_left rfl

/-- The END_FRAME row. -/
theorem matches_endFrame_iff (w : Word) :
    w &&& 0xFFFF0000#32 = 0x60000000#32 ↔ w.toNat / 2 ^ 29 = 3 ∧ w.toNat / 2 ^ 16 % 2 ^ 13 = 0 := by
  rw [← endReserved_eq_zero]
  conv_lhs => rw [← endFields_append w]
  refine (append_and_append_eq_append_iff (opField w ++ w.extractLsb' 16 13) (BitVec.allOnes 3 ++ BitVec.allOnes 13)
    (3#3 ++ 0#13) _ 0#16 0#16).trans ?_
  rw [append_and_append_eq_append_iff, BitVec.and_allOnes, BitVec.and_allOnes, opField_eq_iff, BitVec.and_zero]
  exact and_iff_left rfl

/-- The WRITE row. -/
theorem matches_write_iff (w : Word) :
    w &&& 0xE0FF0000#32 = 0x80000000#32 ↔ w.toNat / 2 ^ 29 = 4 ∧ w.toNat / 2 ^ 16 % 2 ^ 8 = 0 := by
  rw [← redField_eq_zero]
  conv_lhs => rw [← writeFields_append w]
  refine (append_and_append_eq_append_iff (opField w ++ brField w ++ redField w)
    (BitVec.allOnes 3 ++ 0#5 ++ BitVec.allOnes 8) (4#3 ++ 0#5 ++ 0#8) _ 0#16 0#16).trans ?_
  rw [append_and_append_eq_append_iff, append_and_append_eq_append_iff, BitVec.and_allOnes, BitVec.and_allOnes,
    opField_eq_iff, BitVec.and_zero, BitVec.and_zero]
  simp

/-- Settles O4: each row is a condition on OP and the reserved field, and the decoder's cases are those conditions. -/
theorem opcodeMapSelectsTheCommand : Obligations.OpcodeMapSelectsTheCommand := by
  intro w next
  simp only [ne_eq, matches_startFrame_iff, matches_sendColor_iff, matches_endFrame_iff, matches_write_iff]
  rcases decode_cases w (some next) with ⟨hop, hz, e⟩ | ⟨hop, e⟩ | ⟨hop, hz, e⟩ | ⟨-, -, hn, -⟩ | ⟨hop, hz, b, -, e⟩ |
    ⟨hr, e⟩
  · simp [-Nat.reducePow, e, hop, hz]
  · simp [-Nat.reducePow, e, hop]
  · simp [-Nat.reducePow, e, hop, hz]
  · cases hn
  · simp [-Nat.reducePow, e, hop, hz]
  · simp [-Nat.reducePow, e, (reservedWord_iff w).mp hr]

/-! The length of a command (30_encoding.md R96). -/

theorem countField_eq (w : Word) : countField w = BitVec.ofNat 16 w.toNat := by
  rw [← BitVec.toNat_inj]
  simp [countField, BitVec.extractLsb'_toNat]

theorem brField_eq (w : Word) : brField w = BitVec.ofNat 5 (w.toNat / 2 ^ 24) := by
  rw [← BitVec.toNat_inj]
  simp [brField, BitVec.extractLsb'_toNat, Nat.shiftRight_eq_div_pow]

theorem length_of_decode {w : Word} {next : Option Word} {i : Instr} {n : Nat} (h : decode w next = .ok (i, n)) :
    n = if w.toNat / 2 ^ 29 = 4 then 2 else 1 := by
  rcases decode_cases w next with ⟨hop, -, e⟩ | ⟨hop, e⟩ | ⟨hop, -, e⟩ | ⟨-, -, -, e⟩ | ⟨hop, -, b, -, e⟩ | ⟨-, e⟩
  all_goals rw [e] at h; cases h
  · rw [hop]; rfl
  · rw [hop]; rfl
  · rw [hop]; rfl
  · rw [hop]; rfl

theorem decode_write_some {w : Word} (hop : w.toNat / 2 ^ 29 = 4) (hz : w.toNat / 2 ^ 16 % 2 ^ 8 = 0) (base : Word) :
    decode w (some base) = .ok (.write base (countField w) (brField w), 2) := by
  simp [-Nat.reducePow, decode, toNat_opField, hop, (redField_eq_zero w).mpr hz]

theorem decode_write_none {w : Word} (hop : w.toNat / 2 ^ 29 = 4) (hz : w.toNat / 2 ^ 16 % 2 ^ 8 = 0) :
    decode w none = .error .truncated := by
  simp [-Nat.reducePow, decode, toNat_opField, hop, (redField_eq_zero w).mpr hz]

/-- Only OP `100` looks at the next word. -/
theorem decode_eq_decode_none {w : Word} (hop : w.toNat / 2 ^ 29 ≠ 4) (next : Option Word) :
    decode w next = decode w none := by
  rw [← toNat_opField] at hop
  simp only [decode]
  split
  · rfl
  · rfl
  · rfl
  · next h => exact absurd h hop
  · rfl

theorem secondWord_of_last {ws : List PortWord} {n : Nat} (h : n + 1 = ws.length) (w : PortWord) :
    secondWord ws n w = none := by
  simp [secondWord, h]

/-- Settles O5: the decoder's cases give the length, and the last word of a stream has no second word. -/
theorem lengthDecoding : Obligations.LengthDecoding := by
  refine ⟨fun w next i n h => length_of_decode h, fun w hop hz base => ?_, fun w next hop => decode_eq_decode_none hop next,
    fun s ws w hs hp hw hlast hop hz => ?_⟩
  · rw [decode_write_some hop hz, countField_eq, brField_eq]
  · have hd : decode w.word (secondWord ws s.cpc w) = .error .truncated := by
      rw [secondWord_of_last hlast, decode_write_none hop hz]
    exact step_of_fetch_rejected hs ((fetch_of_words hp).trans (fetchWord_of_decode_error hw hd))

/-! A step in the record form (30_encoding.md R90, 60_exceptions.md R179). -/

theorem fetchRecord_of_assemble {rs : List PortRecord} {n : Nat} {c : PortRecord} {i : Instr} (hc : rs[n]? = some c)
    (h : assemble c.cmd = .ok i) : fetchRecord rs n = .command c.inst i := by
  simp only [fetchRecord, hc, h]

theorem fetchRecord_of_assemble_error {rs : List PortRecord} {n : Nat} {c : PortRecord} {r : Refusal}
    (hc : rs[n]? = some c) (h : assemble c.cmd = .error r) : fetchRecord rs n = .rejected r := by
  simp only [fetchRecord, hc, h]

/-- Settles O8: the fetch gives the assembled command, or the assembler's refusal. -/
theorem stepRunsTheRecordedCommand : Obligations.StepRunsTheRecordedCommand :=
  fun _ _ _ hs hp hc =>
    ⟨fun _ h => step_of_fetch_command hs ((fetch_of_records hp).trans (fetchRecord_of_assemble hc h)),
      fun _ h => step_of_fetch_rejected hs ((fetch_of_records hp).trans (fetchRecord_of_assemble_error hc h))⟩

end Sys2Proof.Machine
end

section
/-!
PROOFS of the statements about the operands of the assembler form (30_encoding.md R86, R88, R100, R101).
-/

namespace Sys2Proof.Machine

/-! Values in range (30_encoding.md R88, R100). -/

theorem channelInRange_iff (v : Int) : channelInRange v = true ↔ 0 ≤ v ∧ v ≤ 255 := decide_eq_true_iff

theorem countInRange_iff (v : Int) : countInRange v = true ↔ 0 ≤ v ∧ v ≤ 65535 := decide_eq_true_iff

/-- A value in range keeps its value as an operand. -/
theorem toNat_ofInt_of_range {n : ℕ} {v : Int} (h0 : 0 ≤ v) (h1 : v < 2 ^ n) : ((BitVec.ofInt n v).toNat : Int) = v := by
  rw [BitVec.toNat_ofInt, Nat.cast_pow, Nat.cast_ofNat, Int.emod_eq_of_lt h0 h1, Int.toNat_of_nonneg h0]

/-! What the assembler answers (30_encoding.md R86, R88, R100, R101). -/

theorem assembleColor_of_range {r g b : Int} (hr : 0 ≤ r ∧ r ≤ 255) (hg : 0 ≤ g ∧ g ≤ 255) (hb : 0 ≤ b ∧ b ≤ 255)
    (br : Option Int) : assembleColor r g b br =
      .ok (.sendColor (BitVec.ofInt 8 r) (BitVec.ofInt 8 g) (BitVec.ofInt 8 b) (brightnessOperand br)) := by
  simp only [assembleColor, (channelInRange_iff _).mpr, hr, hg, hb, Bool.and_self, and_self, if_true]

theorem assembleColor_of_not_range {r g b : Int} (h : ¬ ((0 ≤ r ∧ r ≤ 255) ∧ (0 ≤ g ∧ g ≤ 255) ∧ (0 ≤ b ∧ b ≤ 255)))
    (br : Option Int) : assembleColor r g b br = .error .channelRange := by
  refine if_neg fun hall => h ?_
  simpa only [Bool.and_eq_true, channelInRange_iff, and_assoc] using hall

theorem assembleColor_ok_inv {r g b : Int} {br : Option Int} {i : Instr} (h : assembleColor r g b br = .ok i) :
    i = .sendColor (BitVec.ofInt 8 r) (BitVec.ofInt 8 g) (BitVec.ofInt 8 b) (brightnessOperand br) := by
  unfold assembleColor at h
  split at h
  · cases h; rfl
  · cases h

theorem assemble_endFrame_of_range {c : Int} (h : 0 ≤ c ∧ c ≤ 65535) :
    assemble (.endFrame c) = .ok (.endFrame (BitVec.ofInt 16 c)) := if_pos ((countInRange_iff c).mpr h)

theorem assemble_endFrame_of_not_range {c : Int} (h : ¬ (0 ≤ c ∧ c ≤ 65535)) :
    assemble (.endFrame c) = .error .countRange := if_neg (mt (countInRange_iff c).mp h)

theorem assemble_write_of_range {c : Int} (h : 0 ≤ c ∧ c ≤ 65535) (base : Addr) (br : Option Int) :
    assemble (.write base c br) = .ok (.write base (BitVec.ofInt 16 c) (brightnessOperand br)) :=
  if_pos ((countInRange_iff c).mpr h)

theorem assemble_write_of_not_range {c : Int} (h : ¬ (0 ≤ c ∧ c ≤ 65535)) (base : Addr) (br : Option Int) :
    assemble (.write base c br) = .error .countRange := if_neg (mt (countInRange_iff c).mp h)

theorem assemble_write_ok_inv {base : Addr} {c : Int} {br : Option Int} {i : Instr} (h : assemble (.write base c br) = .ok i) :
    i = .write base (BitVec.ofInt 16 c) (brightnessOperand br) := by
  by_cases hc : 0 ≤ c ∧ c ≤ 65535
  · rw [assemble_write_of_range hc] at h; cases h; rfl
  · rw [assemble_write_of_not_range hc] at h; cases h

/-! Brightness (30_encoding.md R82, R86). -/

theorem toNat_maskBrightness (br : Int) : ((maskBrightness br).toNat : Int) = br % 32 := by
  rw [maskBrightness, BitVec.toNat_ofInt]
  exact Int.toNat_of_nonneg (Int.emod_nonneg br (by decide))

/-- The header's three fixed bits hide what masking takes away. -/
theorem header_or_mask (v : Byte) : 0xE0#8 ||| v = 0xE0#8 ||| (v &&& 0x1F#8) := by
  ext i hi
  interval_cases i <;> simp

/-- Settles O9: the brightness of what the assembler builds is the masked operand, and the mask is reduction modulo 32. -/
theorem brightnessIsMasked : Obligations.BrightnessIsMasked := by
  refine ⟨toNat_maskBrightness, by decide, by decide, fun r g b br i h => ⟨_, _, _, assembleColor_ok_inv h⟩,
    fun r g b i h => ⟨_, _, _, assembleColor_ok_inv h⟩, fun base count br i h => ⟨_, assemble_write_ok_inv h⟩,
    fun base count i h => ⟨_, assemble_write_ok_inv h⟩, header_or_mask⟩

/-! Counts and channels (30_encoding.md R88, R100). -/

/-- Settles O10: the range check decides, and in range the operand keeps its value. -/
theorem countIsRangeChecked : Obligations.CountIsRangeChecked := by
  refine ⟨fun c => ⟨fun h hc => ?_, assemble_endFrame_of_not_range⟩,
    fun base c br => ⟨fun h hc => ?_, fun hc => assemble_write_of_not_range hc base br⟩,
    fun c h0 h1 => ⟨BitVec.ofInt 16 c, toNat_ofInt_of_range h0 (by omega), assemble_endFrame_of_range ⟨h0, h1⟩,
      assemble_write_of_range ⟨h0, h1⟩⟩⟩
  · rw [assemble_endFrame_of_range hc] at h; cases h
  · rw [assemble_write_of_range hc] at h; cases h

/-- Settles O11: the range check decides, in range each channel keeps its value, and both spellings assemble alike. -/
theorem channelsAreRangeChecked : Obligations.ChannelsAreRangeChecked := by
  refine ⟨rfl, fun r g b br => ⟨rfl, ⟨fun h ⟨hr, hg, hb⟩ => ?_, fun h => assembleColor_of_not_range h br⟩,
    fun hr hg hb => ⟨_, _, _, toNat_ofInt_of_range hr.1 (by omega), toNat_ofInt_of_range hg.1 (by omega),
      toNat_ofInt_of_range hb.1 (by omega), assembleColor_of_range hr hg hb br⟩⟩⟩
  rw [assemble, assembleColor_of_range hr hg hb] at h
  cases h

end Sys2Proof.Machine
end

section
/-!
PROOFS of the statements about Emit, INIT and TRANSFER (40_bit_transfer.md R110, R112 to R114).
-/

namespace Sys2Proof.Machine

/-! Emit (40_bit_transfer.md R110). -/

/-- Settles O12: what one event does to the direction bits and to the latches. -/
theorem emitWritesOneBitOfOnePin : Obligations.EmitWritesOneBitOfOnePin := by
  refine fun s ev => ⟨rfl, ?_, ?_, rfl⟩
  · rintro p rfl
    refine ⟨?_, fun a ha => ?_, fun a => latch_apply_cfg _ _ _⟩
    · simp [oeBit_apply]
    · simp [oeBit_apply, ha.symm]
  · rintro p l rfl
    refine ⟨?_, fun a ha => ?_, fun a => ?_⟩
    · simp [latch_apply_set]
    · simp [latch_apply_set, ha]
    · simp [oeBit_apply]

/-! A line that drives 0, under events that do not set it to 1. -/

theorem wire_low_apply {f : PinFile} {c : Pin} {ev : Event} (hf : f.wire c = .driven false) (hev : ev ≠ .set c true) :
    (f.apply ev).wire c = .driven false := by
  obtain ⟨hout, hlatch⟩ := (PinFile.wire_eq_driven _ _ _).mp hf
  refine (PinFile.wire_eq_driven _ _ _).mpr ⟨by rw [oeBit_apply, hout, Bool.or_true], ?_⟩
  cases ev with
  | cfg p => exact hlatch
  | set p l =>
    rw [latch_apply_set]
    split
    · next h => subst h; simpa using hev
    · exact hlatch

theorem wire_low_foldl {f : PinFile} {c : Pin} {evs : List Event} (hf : f.wire c = .driven false)
    (hevs : .set c true ∉ evs) : (evs.foldl PinFile.apply f).wire c = .driven false := by
  induction evs generalizing f with
  | nil => exact hf
  | cons ev evs ih =>
    obtain ⟨hev, hrest⟩ := List.ne_and_not_mem_of_not_mem_cons hevs
    exact ih (wire_low_apply hf hev.symm) hrest

theorem clockEdges_low {f : PinFile} {c : Pin} {evs : List Event} (hf : f.wire c = .driven false)
    (hevs : .set c true ∉ evs) : clockEdges c f evs = 0 := by
  induction evs generalizing f with
  | nil => rfl
  | cons ev evs ih =>
    obtain ⟨hev, hrest⟩ := List.ne_and_not_mem_of_not_mem_cons hevs
    have hlow := wire_low_apply hf hev.symm
    simp [clockEdges, isClockEdge, hf, hlow, ih hlow hrest]

/-! INIT (40_bit_transfer.md R112, R113). -/

theorem set_true_notMem_initEvents (pp : PinPair) (p : Pin) : .set p true ∉ initEvents pp := by simp [initEvents]

section
variable (s : State) (pp : PinPair) {p : Pin}

theorem init_oeBit (hp : p = pp.clk ∨ p = pp.data) : (s.init pp).pins.oeBit p = true := by
  rw [State.init_pins, init_oe, decide_eq_true hp, Bool.true_or]

theorem init_latch (hp : p = pp.clk ∨ p = pp.data) : (s.init pp).pins.latch p = false :=
  latch_of_find? (by rw [State.init_pins, init_find?, if_pos hp])

theorem init_wire (hp : p = pp.clk ∨ p = pp.data) : (s.init pp).pins.wire p = .driven false := by
  rw [PinFile.wire_of_driven (init_oeBit s pp hp), init_latch s pp hp]

theorem init_other (hclk : p ≠ pp.clk) (hdata : p ≠ pp.data) :
    (s.init pp).pins.oeBit p = s.pins.oeBit p ∧ (s.init pp).pins.latch p = s.pins.latch p := by
  rw [State.init_pins, init_oe, latch_eq, latch_eq, init_find?]
  simp [hclk, hdata]

end

/-- Settles O15: what INIT leaves on its two lines, and that a clock line that drives 0 has no edge under events that do not
set it to 1. -/
theorem initDrivesBothLinesLow : Obligations.InitDrivesBothLinesLow := by
  refine fun s pp => ⟨rfl, init_oeBit s pp (.inr rfl), init_oeBit s pp (.inl rfl), init_latch s pp (.inr rfl),
    init_latch s pp (.inl rfl), fun p => init_other s pp, fun hout hlatch => ?_, init_wire _ _ (.inl rfl),
    init_wire _ _ (.inr rfl)⟩
  exact clockEdges_low ((PinFile.wire_eq_driven _ _ _).mpr ⟨hout, hlatch⟩) (set_true_notMem_initEvents pp _)

theorem wire_low_of_ne_high {f : PinFile} {p : Pin} (h : f.wire p ≠ .driven true) : f.wire p = .z ∨ f.wire p = .driven false := by
  match hw : f.wire p with
  | .z => exact .inl rfl
  | .driven false => exact .inr rfl
  | .driven true => exact absurd hw h

/-- INIT on one pin, `Set(p, 0)` and then `Cfg(p)`: no line that is not at 1 goes to 1 at either event. -/
theorem driveLow_ne_high {f : PinFile} {c : Pin} (h : f.wire c ≠ .driven true) (p : Pin) :
    (f.apply (.set p false)).wire c ≠ .driven true ∧
    ((f.apply (.set p false)).apply (.cfg p)).wire c ≠ .driven true := by
  by_cases hp : c = p
  · subst hp
    constructor <;> exact wire_ne_high_of_find? (by simp [find?_apply])
  · have hother : ∀ g : PinFile, (g.apply (.cfg p)).wire c = g.wire c := fun g => by
      simp [PinFile.wire, oeBit_apply, latch_apply_cfg, Ne.symm hp]
    have hset : (f.apply (.set p false)).wire c = f.wire c := by simp [wire_apply_set, hp]
    rw [hother, hset]
    exact ⟨h, h⟩

/-- At no point of INIT is a line at 1 that was not at 1 before it. -/
theorem init_prefix_ne_high {f : PinFile} {c : Pin} (h : f.wire c ≠ .driven true) (pp : PinPair) (n : Nat) :
    (((initEvents pp).take n).foldl PinFile.apply f).wire c ≠ .driven true := by
  obtain ⟨h1, h2⟩ := driveLow_ne_high h pp.data
  obtain ⟨h3, h4⟩ := driveLow_ne_high h2 pp.clk
  match n with
  | 0 => exact h
  | 1 => exact h1
  | 2 => exact h2
  | 3 => exact h3
  | n + 4 => rw [List.take_of_length_le (Nat.le_add_left 4 n)]; exact h4

/-- Settles O16: nothing in INIT sets a line to 1, and each of its two pins is set to 0 before it is made an output. -/
theorem initMakesNoRisingEdge : Obligations.InitMakesNoRisingEdge := by
  refine fun pp f => ⟨fun strip => initEvents_no_rise pp strip f,
    fun h n => wire_low_of_ne_high (init_prefix_ne_high h pp n), fun n hlow => ?_⟩
  rw [List.take_add_one, List.foldl_append]
  refine wire_low_foldl hlow fun hm => set_true_notMem_initEvents pp pp.clk ?_
  exact List.mem_of_getElem? (Option.mem_toList.mp hm)

/-! TRANSFER (40_bit_transfer.md R114). -/

section
variable (s : State) (pp : PinPair) (v : Byte)

theorem transferAll_singleton_pins : (s.transferAll pp [v]).pins = (transferEvents pp v).foldl PinFile.apply s.pins := by
  rw [State.transferAll_pins, List.flatMap_singleton]

theorem transferAll_oeBit (bytes : List Byte) (p : Pin) : (s.transferAll pp bytes).pins.oeBit p = s.pins.oeBit p :=
  transfers_oe pp bytes s.pins p

/-- TRANSFER drives nothing that was not driven: it looks at no direction bit and writes none. -/
theorem transferAll_wire_eq_z (bytes : List Byte) (p : Pin) :
    (s.transferAll pp bytes).pins.wire p = .z ↔ s.pins.wire p = .z := by
  rw [PinFile.wire_eq_z, PinFile.wire_eq_z, transferAll_oeBit]

end

/-- Settles O17: the events are the trace as data, and the last bit sent decides both latches. -/
theorem transferSendsEightBits : Obligations.TransferSendsEightBits := by
  refine fun s pp v hne => ⟨rfl, latch_of_find? ?_, latch_of_find? ?_, transferAll_oeBit s pp [v],
    fun p => (transferAll_wire_eq_z s pp [v] p).mpr, fun p hclk hdata => ?_⟩
  · rw [transferAll_singleton_pins, transfer_find? pp hne, if_pos rfl]
  · rw [transferAll_singleton_pins, transfer_find? pp hne, if_neg hne.symm, if_pos rfl]
  · rw [latch_eq, latch_eq, transferAll_singleton_pins, transfer_find? pp hne, if_neg hclk, if_neg hdata]

end Sys2Proof.Machine
end

section
/-!
PROOFS of the statements about the events of a command and the bits a strip samples from them (40_bit_transfer.md R117 to
R119).
-/

namespace Sys2Proof.Machine

/-! How many events a command has (40_bit_transfer.md R117, 70_reset_and_hazards.md R210). -/

theorem length_commandBytes (i : Instr) (s : State) : (commandBytes i s).length = byteCount i := by
  cases i with
  | startFrame => rfl
  | sendColor r g b br => rfl
  | endFrame count => simp [commandBytes, byteCount, endFrameBytes, Nat.add_comm]
  | write base count br =>
    have hframe : commandBytes (.write base count br) s =
        startFrameBytes ++ ledBytes br (arrayColours s base count) ++ endFrameBytes count := rfl
    have hstart : startFrameBytes.length = 4 := rfl
    rw [hframe, List.length_append, List.length_append, hstart, length_ledBytes, length_arrayColours, length_endFrameBytes,
      byteCount, frameLength]
    omega

/-- The counts of R210 are INIT's events and 24 for each byte. -/
theorem eventCount_eq (i : Instr) : eventCount i = (if runsInit i then 4 else 0) + 24 * byteCount i := by
  cases i with
  | startFrame => rfl
  | sendColor r g b br => rfl
  | endFrame count => simp only [eventCount, runsInit, byteCount, endZeros, Bool.false_eq_true, if_false]; omega
  | write base count br => simp only [eventCount, runsInit, byteCount, frameLength, if_true]; omega

theorem length_commandEvents (i : Instr) (pp : PinPair) (s : State) : (commandEvents i pp s).length = eventCount i := by
  rw [commandEvents, List.length_append, length_transfers, length_commandBytes, eventCount_eq]
  cases runsInit i <;> rfl

/-- Settles O29: the events of INIT, of a bit and of a TRANSFER are counted as data, those of a command by its bytes. -/
theorem eventCountsOfCommands : Obligations.EventCountsOfCommands := by
  refine ⟨fun s pp v => ⟨?_, ?_, rfl, fun _ => rfl⟩, fun s t i h => ?_⟩
  · rw [State.init_trace, List.length_append]; rfl
  · rw [State.transferAll_trace, List.length_append]; rfl
  · obtain ⟨pp, -, -, rfl⟩ := exec_next_inv h
    rw [completed_trace, List.length_append, length_commandEvents]

/-! The pin state in which the first TRANSFER of a command starts (40_bit_transfer.md R119). -/

/-- The pin state after a command's INIT, if it runs INIT. -/
def transferPins (i : Instr) (pp : PinPair) (f : PinFile) : PinFile :=
  (if runsInit i then initEvents pp else []).foldl PinFile.apply f

section
variable {i : Instr} {pp : PinPair} {f : PinFile}

theorem transferPins_of_init (h : runsInit i = true) : transferPins i pp f = (initEvents pp).foldl PinFile.apply f := by
  rw [transferPins, if_pos h]

theorem transferPins_of_no_init (h : runsInit i = false) : transferPins i pp f = f := by
  rw [transferPins, h]; rfl

end

section
variable {s : State} {pp : PinPair} (hi : Inv s) (hm : pp ∈ s.config.bindings) (i : Instr)
include hi hm

theorem Inv.clk_latch_low (hout : s.pins.oeBit pp.clk = true) : s.pins.latch pp.clk = false :=
  Bool.eq_false_iff.mpr fun hlatch => hi.clk_not_high hm ((PinFile.wire_eq_driven _ _ _).mpr ⟨hout, hlatch⟩)

/-- A clock line that is an output when the first TRANSFER starts is at 0. -/
theorem transferPins_clk_latch_low (hout : (transferPins i pp s.pins).oeBit pp.clk = true) :
    (transferPins i pp s.pins).latch pp.clk = false := by
  cases hr : runsInit i with
  | true => rw [transferPins_of_init hr]; exact init_latch s pp (.inl rfl)
  | false =>
    rw [transferPins_of_no_init hr] at hout ⊢
    exact hi.clk_latch_low hm hout

/-- The condition of R119: the command runs INIT, or its pins are outputs already. -/
theorem transferPins_linesReady
    (h : runsInit i = true ∨ (s.pins.oeBit pp.clk = true ∧ s.pins.oeBit pp.data = true)) :
    LinesReady (transferPins i pp s.pins) pp := by
  have hout : (transferPins i pp s.pins).oeBit pp.clk = true ∧ (transferPins i pp s.pins).oeBit pp.data = true := by
    cases hr : runsInit i with
    | true => rw [transferPins_of_init hr]; exact ⟨init_oeBit s pp (.inl rfl), init_oeBit s pp (.inr rfl)⟩
    | false => rw [transferPins_of_no_init hr]; exact h.resolve_left (by simp [hr])
  exact ⟨hout.1, hout.2, transferPins_clk_latch_low hi hm i hout.1⟩

end

/-! The bits that a command adds to a strip (40_bit_transfer.md R118, R119). -/

/-- INIT adds no bit, so the added bits are those sampled from the TRANSFERs. -/
theorem completed_bitStream {s : State} (hi : Inv s) (i : Instr) (pp strip : PinPair) :
    (completed i pp s).bitStream strip = s.bitStream strip ++
      sampledBits strip (transferPins i pp s.pins) ((commandBytes i s).flatMap (transferEvents pp)) := by
  have hinit : sampledBits strip s.pins (if runsInit i then initEvents pp else []) = [] := by
    cases runsInit i with
    | true => exact initEvents_no_rise pp strip s.pins
    | false => rfl
  rw [State.bitStream, State.bitStream, completed_trace, sampledBits_append, ← hi.replay, commandEvents, sampledBits_append,
    hinit, List.nil_append, transferPins]

/-- On lines that are ready, a strip samples from its own TRANSFERs the bits sent. -/
theorem LinesReady.sampledBits_bytes {f : PinFile} {pp : PinPair} (h : LinesReady f pp) (hne : pp.clk ≠ pp.data)
    (bytes : List Byte) :
    sampledBits pp f (bytes.flatMap (transferEvents pp)) = (bytes.flatMap byteBits).map Wire.driven := by
  rw [Machine.sampledBits_bytes pp pp hne rfl hne.symm f bytes h.clkOut h.clkLow]
  exact List.map_congr_left fun l _ => if_pos ⟨rfl, h.dataOut⟩

/-- Settles O19: the event list is that of a completed command, and its lines are ready when the first TRANSFER starts. -/
theorem commandAddsExactlyItsBytes : Obligations.CommandAddsExactlyItsBytes := by
  intro s t i pp hi h hb
  obtain ⟨pp', ha, -, rfl⟩ := exec_next_inv h
  obtain rfl := accepts_bound_eq ha hb
  refine ⟨by rw [completed_trace, commandEvents, List.append_assoc], fun hout => ?_⟩
  have hready := transferPins_linesReady hi (List.mem_of_getElem? hb) i hout
  rw [completed_bitStream hi, hready.sampledBits_bytes (accepts_pins_ne ha)]

/-- What a strip samples from the TRANSFERs of an instance whose clock line, if it is an output, is at 0: nothing on another
clock line or on an undriven one, and one bit for each bit sent otherwise. -/
theorem length_sampledBits_bytes {pp strip : PinPair} {f : PinFile} (hne : pp.clk ≠ pp.data) (hdata : strip.data ≠ pp.clk)
    (hclk : strip.clk ≠ pp.data) (hlow : f.oeBit pp.clk = true → f.latch pp.clk = false) (bytes : List Byte) :
    ∃ n, (sampledBits strip f (bytes.flatMap (transferEvents pp))).length = 8 * n := by
  by_cases hs : strip.clk = pp.clk
  · cases hout : f.oeBit pp.clk with
    | true =>
      refine ⟨bytes.length, ?_⟩
      rw [sampledBits_bytes pp strip hne hs hdata f bytes hout (hlow hout), List.length_map, length_bits]
    | false =>
      have hcfg : .cfg strip.clk ∉ bytes.flatMap (transferEvents pp) := fun hm => by
        obtain ⟨l, h | h⟩ := mem_transfers hm <;> cases h
      exact ⟨0, by rw [sampledBits_not_driven hcfg f (hs ▸ hout)]; rfl⟩
  · have hset : .set strip.clk true ∉ bytes.flatMap (transferEvents pp) := fun hm => by
      obtain ⟨l, h | h⟩ := mem_transfers hm
      · exact hs (Event.set.inj h).1
      · exact hclk (Event.set.inj h).1
    exact ⟨0, by rw [sampledBits_no_rise hset f]; rfl⟩

/-- No strip of the pin map crosses its lines with those of the running instance (10_state.md R35). -/
theorem accepts_strip_apart {s : State} {pp strip : PinPair} (h : Accepts s pp) (hm : strip ∈ s.config.bindings) :
    strip.data ≠ pp.clk ∧ strip.clk ≠ pp.data := by
  obtain ⟨k, hb⟩ := List.mem_iff_getElem?.mp hm
  rcases accepts_binding_cases h hb with ⟨-, rfl⟩ | ⟨-, hdata, -, hclk⟩
  · exact ⟨(accepts_pins_ne h).symm, accepts_pins_ne h⟩
  · exact ⟨hdata, hclk⟩

/-- Settles O20: a step is a completed command, INIT adds no bit, and every strip samples all of the bits of its TRANSFERs or
none of them. -/
theorem stepKeepsEveryStripByteAligned : Obligations.StepKeepsEveryStripByteAligned := by
  intro s t strip hi hm hstep
  obtain ⟨k, i, pp, -, ha, -, rfl⟩ := step_next_inv hstep
  have hik := hi.setPort k
  obtain ⟨hdata, hclk⟩ := accepts_strip_apart ha hm
  obtain ⟨n, hn⟩ := length_sampledBits_bytes (accepts_pins_ne ha) hdata hclk
    (transferPins_clk_latch_low hik (List.mem_of_getElem? ha.bound) i) (commandBytes i (s.setPort k))
  exact ⟨n, _, completed_bitStream hik i pp strip, hn⟩

end Sys2Proof.Machine
end

section
/-!
PROOFS of the statements about the frame protocol (41_frame_protocol.md): the three streaming commands (R130, R136, R140), the
end frame (R141 to R143, R147), and the ghost contract (R150, R151).
-/

namespace Sys2Proof.Machine

/-! When a completed command leaves `misuse` set (41_frame_protocol.md R151, 42_batch_write.md R166, 60_exceptions.md R190). -/

section
variable (g : Ghost)

theorem ownMisuse_startFrame_iff : ownMisuse .startFrame g = true ↔ g.phase = .streaming := decide_eq_true_iff

theorem ownMisuse_sendColor_iff (r gr b : Byte) (br : Brightness) :
    ownMisuse (.sendColor r gr b br) g = true ↔ g.phase = .idle := decide_eq_true_iff

theorem ownMisuse_endFrame_iff (count : Count) : ownMisuse (.endFrame count) g = true ↔
    g.phase = .idle ∨ count.toNat ≠ g.nsent ∨ count.toNat = 0 := by
  simp only [ownMisuse, Bool.or_eq_true, decide_eq_true_eq, or_assoc]

theorem ownMisuse_write_iff (base : Addr) (count : Count) (br : Brightness) :
    ownMisuse (.write base count br) g = true ↔ count.toNat = 0 ∨ g.phase = .streaming := by
  simp only [ownMisuse, Bool.or_eq_true, decide_eq_true_eq]

end

theorem completed_misuse_iff (i : Instr) (pp : PinPair) (s : State) : (completed i pp s).misuse = true ↔
    s.misuse = true ∨ ownMisuse i (s.ghostOf s.port) = true ∨ SharedClockStreaming s pp := by
  rw [completed_misuse, misuseOf, Bool.or_eq_true, Bool.or_eq_true, sharedClockMisuse_iff]

/-- Settles O42: the misuse conditions of the command, case by case, and that the events do not depend on the ghost state. -/
theorem misuseIsSetExactlyByTheContract : Obligations.MisuseIsSetExactlyByTheContract := by
  intro s t i pp h hb
  refine ⟨?_, fun g m => ?_⟩
  · obtain ⟨pp', ha, -, rfl⟩ := exec_next_inv h
    obtain rfl := accepts_bound_eq ha hb
    rw [completed_misuse_iff]
    refine or_congr_right (or_comm.trans (or_congr_right ?_))
    cases i with
    | startFrame => simp [ownMisuse_startFrame_iff]
    | sendColor r g b br => simp [ownMisuse_sendColor_iff]
    | endFrame count => simp [ownMisuse_endFrame_iff]
    | write base count br => simp [ownMisuse_write_iff]
  · have hsame : SameButGhost s { s with ghost := g, misuse := m } := ⟨rfl, rfl, rfl, rfl, rfl, rfl, rfl, rfl, rfl⟩
    obtain ⟨t', ht', hst⟩ := (ghostStateNeverChangesTheEvents _ _ i hsame).1 t h
    exact ⟨t', ht', hst.trace, hst.pins⟩

/-- Settles O41: the table of R150 on the addressed instance, and no other instance. -/
theorem ghostTransitions : Obligations.GhostTransitions := by
  intro s t i h
  obtain ⟨pp, -, -, rfl⟩ := exec_next_inv h
  rw [completed_ghostOf_own]
  refine ⟨?_, ?_, ?_, ?_, fun k => completed_ghostOf_other⟩
  · rintro rfl; exact ⟨rfl, rfl⟩
  · rintro r g b br rfl; exact ⟨rfl, rfl⟩
  · rintro count rfl; exact ⟨rfl, rfl⟩
  · rintro base count br rfl; exact ⟨rfl, rfl⟩

/-! The streaming commands (41_frame_protocol.md R130, R136, R140). -/

/-- A one-word command is one unit of `cpc` in both forms of the command list (10_state.md R48). -/
theorem cmdLength_eq_one {i : Instr} (h : i.wordCount = 1) (s : State) : s.cmdLength i = 1 := by
  unfold State.cmdLength
  split
  · exact h
  · rfl

theorem completed_cpc_of_one_word {i : Instr} (h : i.wordCount = 1) (pp : PinPair) (s : State) :
    (completed i pp s).cpc = s.cpc + 1 := by
  rw [completed_cpc, cmdLength_eq_one h]

theorem length_completed_trace (i : Instr) (pp : PinPair) (s : State) :
    (completed i pp s).trace.length = s.trace.length + eventCount i := by
  rw [completed_trace, List.length_append, length_commandEvents]

theorem completed_trace_of_init {i : Instr} (h : runsInit i = true) (pp : PinPair) (s : State) :
    (completed i pp s).trace = s.trace ++ initEvents pp ++ (commandBytes i s).flatMap (transferEvents pp) := by
  rw [completed_trace, commandEvents, if_pos h, List.append_assoc]

theorem completed_trace_of_no_init {i : Instr} (h : runsInit i = false) (pp : PinPair) (s : State) :
    (completed i pp s).trace = s.trace ++ (commandBytes i s).flatMap (transferEvents pp) := by
  rw [completed_trace, commandEvents, h, if_neg Bool.false_ne_true, List.nil_append]

/-- Settles O22: the completed START_FRAME, field by field. -/
theorem startFrameResult : Obligations.StartFrameResult := by
  refine ⟨decode_encode (i := .startFrame) (rest := []) rfl, fun s pp ha hc => ?_⟩
  refine ⟨_, exec_completes (i := .startFrame) ha hc, completed_trace_of_init rfl pp s, length_completed_trace _ pp s,
    completed_oeBit_of_runsInit rfl (.inl rfl), completed_oeBit_of_runsInit rfl (.inr rfl), completed_latch_clk ha,
    completed_latch_data ha (by simp), completed_ghostOf_own, ?_, completed_cpc_of_one_word rfl pp s, completed_seq _ pp s,
    completed_frame ha _⟩
  rw [completed_misuse_iff, ownMisuse_startFrame_iff]

/-- Settles O23: the completed SEND_COLOR, field by field; the header byte is a sum because its two parts share no bit. -/
theorem sendColorResult : Obligations.SendColorResult := by
  refine ⟨fun r g b br => decode_encode (i := .sendColor r g b br) (rest := []) rfl, fun s pp r g b br ha hc => ?_⟩
  refine ⟨_, exec_completes (i := .sendColor r g b br) ha hc, ?_, length_completed_trace _ pp s, completed_latch_clk ha,
    completed_latch_data_sendColor ha r g b br, completed_oeBit_of_no_init rfl pp s, completed_ghostOf_own, ?_,
    completed_cpc_of_one_word rfl pp s, completed_seq _ pp s, completed_frame ha _⟩
  · rw [completed_trace_of_no_init rfl, commandBytes, ledWord, headerByte_eq_add]
  · rw [completed_misuse_iff, ownMisuse_sendColor_iff]

/-- Settles O24: the completed END_FRAME, field by field. -/
theorem endFrameResult : Obligations.EndFrameResult := by
  refine ⟨fun count => decode_encode (i := .endFrame count) (rest := []) rfl, fun s pp count ha hc => ?_⟩
  refine ⟨_, exec_completes (i := .endFrame count) ha hc, completed_trace_of_no_init rfl pp s, length_completed_trace _ pp s,
    completed_latch_clk ha, completed_latch_data ha (by simp), completed_oeBit_of_no_init rfl pp s, completed_ghostOf_own, ?_,
    completed_cpc_of_one_word rfl pp s, completed_seq _ pp s, completed_frame ha _⟩
  rw [completed_misuse_iff, ownMisuse_endFrame_iff, or_assoc, or_assoc]

/-! The end frame (41_frame_protocol.md R141 to R143, R147). -/

/-- The bytes of a frame by its colours, whatever the count they are paired with (30_encoding.md R84). -/
theorem length_frameBytes (colours : List Colour) (br : Brightness) (count : Count) :
    (frameBytes colours br count).length = 4 + 4 * colours.length + (6 + count.toNat / 16) := by
  have hframe : frameBytes colours br count = startFrameBytes ++ ledBytes br colours ++ endFrameBytes count := rfl
  have hstart : startFrameBytes.length = 4 := rfl
  rw [hframe, List.length_append, List.length_append, hstart, length_ledBytes, length_endFrameBytes]

theorem endZeros_eq_shift (count : Count) : endZeros count = 5 + (count >>> 4).toNat := by
  rw [endZeros, BitVec.toNat_ushiftRight, Nat.shiftRight_eq_div_pow]

/-- Settles O30: the count is below `2^16`, and the rest is arithmetic on `floor(count / 16)`. -/
theorem endFrameArithmetic : Obligations.EndFrameArithmetic := by
  intro count
  have hlt : count.toNat < 2 ^ 16 := count.isLt
  refine ⟨endZeros_eq_shift count, ?_, ?_, ?_, ?_, by rw [length_endFrameBytes, endZeros]; omega, ?_, ?_, ?_,
    fun colours br hlen => by rw [length_frameBytes, hlen, frameLength]; omega⟩
  all_goals simp only [endZeros, frameLength]; omega

/-- Settles O31: the events are those of the bytes of the end frame, which are made of the count. -/
theorem endFrameDependsOnCountAlone : Obligations.EndFrameDependsOnCountAlone := by
  intro s s' t t' pp count h h' hb hb'
  obtain ⟨pp1, ha, -, rfl⟩ := exec_next_inv h
  obtain ⟨pp2, ha', -, rfl⟩ := exec_next_inv h'
  obtain rfl := accepts_bound_eq ha hb
  obtain rfl := accepts_bound_eq ha' hb'
  exact ⟨_, completed_trace_of_no_init rfl _ s, completed_trace_of_no_init rfl _ s'⟩

section
variable {pp : PinPair} (hne : pp.clk ≠ pp.data) {f : PinFile} (hlow : f.wire pp.clk = .driven false)
include hne hlow

/-- A bit on a clock line that drives 0 makes its rising and its falling edge, and leaves the line driving 0. -/
theorem clockEdges_bitEvents (l : Level) : clockEdges pp.clk f (bitEvents pp l) = 2 ∧
    ((bitEvents pp l).foldl PinFile.apply f).wire pp.clk = .driven false := by
  have hout : f.oeBit pp.clk = true := ((PinFile.wire_eq_driven _ _ _).mp hlow).1
  simp [bitEvents, clockEdges, isClockEdge, wire_apply_set, oeBit_apply, hne, hlow, hout]

theorem clockEdges_bits (ls : List Level) : clockEdges pp.clk f (ls.flatMap (bitEvents pp)) = 2 * ls.length := by
  induction ls generalizing f with
  | nil => rfl
  | cons l ls ih =>
    obtain ⟨hbit, hafter⟩ := clockEdges_bitEvents hne hlow l
    rw [List.flatMap_cons, clockEdges_append, hbit, ih hafter, List.length_cons]
    omega

/-- Every byte makes two edges for each of its eight bits. -/
theorem clockEdges_bytes (bytes : List Byte) :
    clockEdges pp.clk f (bytes.flatMap (transferEvents pp)) = 16 * bytes.length := by
  have hbits : bytes.flatMap (transferEvents pp) = (bytes.flatMap byteBits).flatMap (bitEvents pp) :=
    List.flatMap_assoc.symm
  rw [hbits, clockEdges_bits hne hlow, length_bits]
  omega

end

/-- Settles O32: 16 edges for each zero byte, and `16 floor(count / 16)` falls short of the count by `count mod 16`. -/
theorem endFrameHasEnoughClockEdges : Obligations.EndFrameHasEnoughClockEdges := by
  intro f pp count hne hready
  have hlow : f.wire pp.clk = .driven false := (PinFile.wire_eq_driven _ _ _).mpr ⟨hready.clkOut, hready.clkLow⟩
  refine ⟨?_, by omega, by omega, ?_⟩
  · rw [clockEdges_bytes hne hlow, List.length_replicate, endZeros]
    omega
  · rw [← List.flatMap_singleton (f := transferEvents pp), clockEdges_bytes hne hlow]
    rfl

end Sys2Proof.Machine
end

section
/-!
PROOFS of the statements about the batch command WRITE (42_batch_write.md): what it sends (R160, R163, R164), the streaming
commands it stands for (R162), its interface (R168), and the pins it is bound to (R169).
-/

namespace Sys2Proof.Machine

/-! The bytes of a WRITE (42_batch_write.md R160, R163). -/

/-- The LED word of colour `i` of the array at `base`, as host memory stands (30_encoding.md R82, 20_memory.md R61). -/
def arrayWord (mem : List Host.Cell) (base : Addr) (br : Brightness) (i : Nat) : List Byte :=
  ledWord (hostByte mem (colourAddr base i 0)) (hostByte mem (colourAddr base i 1)) (hostByte mem (colourAddr base i 2)) br

theorem length_startFrameBytes : startFrameBytes.length = 4 := rfl

theorem length_arrayWord (mem : List Host.Cell) (base : Addr) (br : Brightness) (i : Nat) :
    (arrayWord mem base br i).length = 4 := rfl

theorem arrayWord_eq (mem : List Host.Cell) (base : Addr) (br : Brightness) (i : Nat) :
    arrayWord mem base br i = [0xE0#8 + br.setWidth 8, hostByte mem (base.toNat + 3 * i + 2),
      hostByte mem (base.toNat + 3 * i + 1), hostByte mem (base.toNat + 3 * i)] := by
  rw [arrayWord, ledWord, headerByte_eq_add]; rfl

theorem ledBytes_coloursFrom_zero (s : State) (base : Addr) (br : Brightness) (n : Nat) :
    ledBytes br (coloursFrom s base n 0) = (List.range n).flatMap (arrayWord s.mem base br) := by
  rw [ledBytes, coloursFrom, List.flatMap_map]
  simp only [Nat.zero_add]
  rfl

theorem commandBytes_write (base : Addr) (count : Count) (br : Brightness) (s : State) :
    commandBytes (.write base count br) s =
      startFrameBytes ++ (List.range count.toNat).flatMap (arrayWord s.mem base br) ++ endFrameBytes count := by
  rw [← ledBytes_coloursFrom_zero, coloursFrom_zero]; rfl

/-- Settles O25: the completed WRITE, field by field; WRITE's own check on an array that does not fit; and at the first read
that is not admitted the stuck state, whose trace ends with the LED words before it. -/
theorem writeResult : Obligations.WriteResult := by
  refine ⟨fun base count br => decode_encode (i := .write base count br) (rest := []) rfl, fun s pp base count br ha => ?_⟩
  refine ⟨fun ho => exec_write_overflow ha ((addrOverflow_iff base count).mpr ho), fun hfit => ?_⟩
  have ho : addrOverflow base count = false := by rw [← Bool.not_eq_true, addrOverflow_iff]; omega
  refine ⟨fun i j hi hj hbad hok => ?_, fun hadm => ?_⟩
  · have hs : StuckRead s base count i j :=
      ⟨hi, hj, hbad, fun m' j' h => hok _ (by unfold colourAddr; omega) (by unfold colourAddr; omega)⟩
    refine ⟨_, exec_write_stuck ha ho hs, ?_⟩
    simp only [stuckState, State.stuckWrite_trace, State.emitAll_trace, State.flagMisuse_trace,
      ledBytes_coloursFrom_zero, ← arrayWord_eq, List.append_assoc]
    rfl
  · refine ⟨_, exec_completes ha ⟨ho, hadm⟩, ?_, ?_, completed_oeBit_of_runsInit rfl (.inl rfl),
      completed_oeBit_of_runsInit rfl (.inr rfl), completed_latch_clk ha, completed_latch_data ha (by simp),
      completed_ghostOf_own, ?_, completed_cpc _ pp s, completed_seq _ pp s, completed_frame ha _⟩
    · rw [completed_trace_of_init rfl, commandBytes_write]
      simp only [← arrayWord_eq]
      rfl
    · rw [length_completed_trace, eventCount]; omega
    · rw [completed_misuse_iff, ownMisuse_write_iff, or_assoc]

/-! The streaming commands a WRITE stands for (30_encoding.md R102, 42_batch_write.md R162). -/

/-- The state a list of completed commands of one instance leaves. -/
def completedAll (pp : PinPair) : List Instr → State → State
  | [], s => s
  | i :: rest, s => completedAll pp rest (completed i pp s)

/-- A command that reads no memory sends the same in every state. -/
theorem commandEvents_of_streaming {i : Instr} (hi : inCapability i = false) (pp : PinPair) (s s' : State) :
    commandEvents i pp s = commandEvents i pp s' := by
  cases i with
  | write base count br => cases hi
  | startFrame | sendColor | endFrame => rfl

theorem completable_of_streaming {i : Instr} {s : State} (hi : inCapability i = false) (hc : s.interface = .concrete) :
    Completable i s := by
  cases i with
  | write base count br => cases hi
  | startFrame | sendColor | endFrame => exact hc

theorem cmdLength_of_streaming {i : Instr} (hi : inCapability i = false) (s : State) : s.cmdLength i = 1 := by
  cases i with
  | write base count br => cases hi
  | startFrame | sendColor | endFrame => exact cmdLength_eq_one rfl s

section
variable {is : List Instr} (his : ∀ i ∈ is, inCapability i = false) (pp : PinPair)
include his

/-- Streaming commands run one after the other: each leaves a state that accepts the next. -/
theorem execAll_completes {s : State} (ha : Accepts s pp) (hc : s.interface = .concrete) :
    execAll is s = .next (completedAll pp is s) := by
  induction is generalizing s with
  | nil => rfl
  | cons i is ih =>
    obtain ⟨hi, his⟩ := List.forall_mem_cons.mp his
    rw [execAll, exec_completes ha (completable_of_streaming hi hc)]
    exact ih his (completed_accepts i pp s ha) hc

/-- What a list of streaming commands leaves: its events on the trace and the pins, and `cpc` past each command. -/
theorem completedAll_events (s : State) :
    (completedAll pp is s).trace = s.trace ++ is.flatMap (commandEvents · pp s) ∧
    (completedAll pp is s).pins = (is.flatMap (commandEvents · pp s)).foldl PinFile.apply s.pins ∧
    (completedAll pp is s).cpc = s.cpc + is.length := by
  induction is generalizing s with
  | nil => exact ⟨(List.append_nil _).symm, rfl, rfl⟩
  | cons i is ih =>
    obtain ⟨hi, his⟩ := List.forall_mem_cons.mp his
    obtain ⟨htrace, hpins, hcpc⟩ := ih his (completed i pp s)
    have hevents : is.flatMap (commandEvents · pp (completed i pp s)) = is.flatMap (commandEvents · pp s) :=
      List.flatMap_congr fun j hj => commandEvents_of_streaming (his j hj) pp _ _
    rw [hevents] at htrace hpins
    refine ⟨?_, ?_, ?_⟩
    · rw [completedAll, htrace, completed_trace, List.flatMap_cons, List.append_assoc]
    · rw [completedAll, hpins, completed_pins, List.flatMap_cons, List.foldl_append]
    · rw [completedAll, hcpc, completed_cpc, cmdLength_of_streaming hi, List.length_cons]; omega

end

theorem completedAll_ghostOf_own (pp : PinPair) (is : List Instr) (s : State) :
    (completedAll pp is s).ghostOf s.port = is.foldl (fun g i => ghostAfter i g) (s.ghostOf s.port) := by
  induction is generalizing s with
  | nil => rfl
  | cons i is ih =>
    rw [completedAll, List.foldl_cons, ← completed_ghostOf_own (pp := pp)]
    exact ih (completed i pp s)

theorem lowerWrite_streaming (cs : List Colour) (br : Brightness) : ∀ i ∈ lowerWrite cs br, inCapability i = false := by
  intro i hi
  simp only [lowerWrite, List.cons_append, List.mem_cons, List.mem_append, List.mem_map, List.not_mem_nil, or_false] at hi
  rcases hi with rfl | ⟨c, -, rfl⟩ | rfl <;> rfl

theorem length_lowerWrite (cs : List Colour) (br : Brightness) : (lowerWrite cs br).length = cs.length + 2 := by
  simp [lowerWrite]

/-- The lowering sends INIT and the bytes of a whole frame (30_encoding.md R84, R102). -/
theorem lowerWrite_events (cs : List Colour) (br : Brightness) (pp : PinPair) (s : State) :
    (lowerWrite cs br).flatMap (commandEvents · pp s) =
      initEvents pp ++ (frameBytes cs br (BitVec.ofNat 16 cs.length)).flatMap (transferEvents pp) := by
  simp only [lowerWrite, List.flatMap_append, List.flatMap_cons, List.flatMap_nil, List.flatMap_map, commandEvents, runsInit,
    commandBytes, frameBytes, List.flatMap_assoc, List.append_assoc, List.append_nil, List.nil_append, if_true,
    Bool.false_eq_true, if_false, List.cons_append]

/-- SEND_COLORs count the colours, whatever the phase (41_frame_protocol.md R150). -/
theorem ghostAfter_sendColors (cs : List Colour) (br : Brightness) (g : Ghost) :
    (cs.map fun c => Instr.sendColor c.r c.g c.b br).foldl (fun g i => ghostAfter i g) g =
      { g with nsent := g.nsent + cs.length } := by
  induction cs generalizing g with
  | nil => rfl
  | cons c cs ih =>
    rw [List.map_cons, List.foldl_cons, ih, List.length_cons, Nat.add_comm cs.length, ← Nat.add_assoc]
    rfl

theorem ghostAfter_lowerWrite (cs : List Colour) (br : Brightness) (g : Ghost) :
    (lowerWrite cs br).foldl (fun g i => ghostAfter i g) g = { phase := .idle, nsent := cs.length } := by
  rw [lowerWrite, List.cons_append, List.foldl_cons, List.foldl_append, ghostAfter_sendColors]
  simp [ghostAfter]

/-- The events of a WRITE are those of its lowering (30_encoding.md R102). -/
theorem lowerWrite_arrayColours_events (base : Addr) (count : Count) (br : Brightness) (pp : PinPair) (s : State) :
    (lowerWrite (arrayColours s base count) br).flatMap (commandEvents · pp s) =
      commandEvents (.write base count br) pp s := by
  rw [lowerWrite_events, length_arrayColours, BitVec.ofNat_toNat, BitVec.setWidth_eq]; rfl

/-- Settles O33: both emit one event list, from which the trace and the pins follow; the ghost state is folded over the
lowering. -/
theorem writeEqualsTheStreamingCommands : Obligations.WriteEqualsTheStreamingCommands := by
  intro s pp base count br ha hc ho hadm
  have hstream := lowerWrite_streaming (arrayColours s base count) br
  obtain ⟨htrace, hpins, hcpc⟩ := completedAll_events hstream pp s
  rw [lowerWrite_arrayColours_events] at htrace hpins
  rw [length_lowerWrite, length_arrayColours] at hcpc
  have hghost := completedAll_ghostOf_own pp (lowerWrite (arrayColours s base count) br) s
  rw [ghostAfter_lowerWrite, length_arrayColours] at hghost
  have hown := completed_ghostOf_own (s := s) (pp := pp) (i := .write base count br)
  refine ⟨_, _, exec_completes ha ⟨ho, hadm⟩, execAll_completes hstream pp ha hc, ?_, ?_, ?_, ?_, ?_, fun ws hw => ⟨?_, hcpc⟩,
    fun rs hr => ?_⟩
  · rw [completed_trace, htrace]
  · rw [completed_pins, hpins]
  · rw [hown, hghost]; rfl
  · rw [hown]; rfl
  · rw [hghost]
  · rw [completed_cpc, State.cmdLength, hw]; rfl
  · rw [completed_cpc, State.cmdLength, hr]

/-! The byte stream (40_bit_transfer.md R118, 42_batch_write.md R163). -/

/-- The bits of whole bytes are grouped into those bytes. -/
theorem groupBytes_bits (bytes : List Byte) : groupBytes ((bytes.flatMap byteBits).map Wire.driven) = bytes.map some := by
  induction bytes with
  | nil => rfl
  | cons v bytes ih =>
    rw [List.flatMap_cons, List.map_append, groupBytes_append _ _ 1 (by rw [List.length_map, length_byteBits]), ih,
      List.map_cons, ← byteOfBits_byteBits v]
    rfl

/-- A command on lines that are outputs adds its bytes to a stream of whole bytes. -/
theorem byteStream_of_exec {s t : State} {i : Instr} {pp : PinPair} (hi : Inv s) (h : exec i s = .next t)
    (hb : s.config.bindings[s.port]? = some pp)
    (hout : runsInit i = true ∨ (s.pins.oeBit pp.clk = true ∧ s.pins.oeBit pp.data = true))
    (halign : (s.bitStream pp).length % 8 = 0) : t.byteStream pp = s.byteStream pp ++ (commandBytes i s).map some := by
  have hbits := (commandAddsExactlyItsBytes s t i pp hi h hb).2 hout
  rw [State.byteStream, State.byteStream, hbits, groupBytes_append _ _ _ (Nat.eq_mul_of_div_eq_right (by omega) rfl),
    groupBytes_bits]

theorem length_flatMap_range {w : Nat → List Byte} (hw : ∀ i, (w i).length = 4) (n : Nat) :
    ((List.range n).flatMap w).length = 4 * n := by
  simp [List.length_flatMap, hw, Nat.mul_comm]

/-- Word `i` of a sequence of 4-byte words stands at offset `4 i`. -/
theorem take_drop_flatMap_range {w : Nat → List Byte} (hw : ∀ i, (w i).length = 4) {i n : Nat} (hi : i < n)
    (tail : List Byte) :
    (((List.range n).flatMap w ++ tail).drop (4 * i)).take 4 = w i := by
  obtain ⟨k, rfl⟩ := Nat.exists_eq_add_of_lt hi
  rw [Nat.add_assoc, List.range_add, List.flatMap_append, List.append_assoc, List.drop_left' (length_flatMap_range hw i),
    List.range_succ_eq_map, List.map_cons, List.flatMap_cons, List.append_assoc, List.take_left' (hw _), Nat.add_zero]

/-- Settles O34: the byte sequence of WRITE, cut at the lengths of its parts. -/
theorem writeFrameLayout : Obligations.WriteFrameLayout := by
  intro s t pp base count br hi h hb halign
  have hfront : (startFrameBytes ++ (List.range count.toNat).flatMap (arrayWord s.mem base br)).length =
      4 + 4 * count.toNat := by
    rw [List.length_append, length_startFrameBytes, length_flatMap_range (length_arrayWord s.mem base br)]
  refine ⟨_, byteStream_of_exec hi h hb (.inl rfl) halign, ?_, ?_, fun i hlt => ?_, ?_, ?_⟩
  · rw [length_commandBytes, byteCount, frameLength]
  · rw [commandBytes_write]; rfl
  · rw [commandBytes_write, List.append_assoc, ← List.drop_drop, List.drop_left' length_startFrameBytes,
      take_drop_flatMap_range (length_arrayWord s.mem base br) hlt]
    rfl
  · rw [commandBytes_write, ← hfront, List.getElem?_append_right le_rfl, Nat.sub_self]; rfl
  · have hcut : 5 + 4 * count.toNat = 4 + 4 * count.toNat + 1 := by omega
    rw [commandBytes_write, hcut, ← hfront, ← List.drop_drop, List.drop_left]; rfl

/-! Permuted colours (42_batch_write.md R164). -/

/-- A command leaves the pin state of its last byte, as data, whatever bytes come before it. -/
theorem completed_pins_eq {s : State} {pp : PinPair} (ha : Accepts s pp) (i : Instr) : (completed i pp s).pins =
    { transferPins i pp s.pins with
      q := put pp.clk false (put pp.data (lastDataBit i) (transferPins i pp s.pins).q) } := by
  obtain ⟨front, last, hbytes, hlast⟩ := commandBytes_snoc i s
  have hbit : last.getLsbD 0 = lastDataBit i := by
    rw [hlast]; cases i <;> simp [lastDataBit]
  rw [completed_pins, commandEvents, List.foldl_append, hbytes, transfers_eq pp (accepts_pins_ne ha), hbit]
  rfl

/-- Memory reaches nothing of what a command leaves but the events. -/
theorem completed_withMem_eq {s : State} {pp : PinPair} (ha : Accepts s pp) (i : Instr) (mem : List Host.Cell) :
    { completed i pp (s.withMem mem) with mem := s.mem, trace := (completed i pp s).trace } = completed i pp s := by
  have ha' : Accepts (s.withMem mem) pp := ⟨ha.pinMap, ha.bound, ha.idle⟩
  have hpins : (completed i pp (s.withMem mem)).pins = (completed i pp s).pins := by
    rw [completed_pins_eq ha, completed_pins_eq ha']; rfl
  calc { completed i pp (s.withMem mem) with mem := s.mem, trace := (completed i pp s).trace }
      = { completed i pp s with pins := (completed i pp (s.withMem mem)).pins } := rfl
    _ = completed i pp s := by rw [hpins]

/-- Settles O35: word `i` of the permuted array is word `σ i` of the array, and memory reaches the events alone.  Neither fact
needs `σ` to be a permutation. -/
theorem permutingColoursPermutesLedWords : Obligations.PermutingColoursPermutesLedWords := by
  intro s s' t t' pp base count br σ _ hsame hbytes hb h h'
  obtain ⟨mem, rfl⟩ : ∃ mem, s' = s.withMem mem := ⟨s'.mem, by rw [← hsame]; rfl⟩
  obtain ⟨pp1, ha, -, rfl⟩ := exec_next_inv h
  obtain ⟨pp2, ha', -, rfl⟩ := exec_next_inv h'
  obtain rfl := accepts_bound_eq ha hb
  obtain rfl := accepts_bound_eq ha' hb
  have hwords : (List.range count.toNat).flatMap (arrayWord mem base br) =
      (List.range count.toNat).flatMap fun i => arrayWord s.mem base br (σ i) :=
    List.flatMap_congr fun i hi => by
      have hbyte := fun j => hbytes i j (List.mem_range.mp hi)
      rw [arrayWord, arrayWord, ← hbyte 0 (by decide), ← hbyte 1 (by decide), ← hbyte 2 (by decide)]; rfl
  refine ⟨completed_withMem_eq ha _ mem, arrayWord s.mem base br, length_arrayWord s.mem base br, ?_, ?_⟩
  · rw [completed_trace_of_init rfl, commandBytes_write]
  · rw [completed_trace_of_init rfl, commandBytes_write, ← hwords]; rfl

/-! The capability interface (42_batch_write.md R168). -/

/-- The state of a program written against another interface. -/
def State.withInterface (s : State) (f : Interface) : State := { s with interface := f }

theorem exec_not_inCapability {s : State} {pp : PinPair} (ha : Accepts s pp) (hc : s.interface = .capability) {i : Instr}
    (hi : inCapability i = false) : exec i s = .refused .notInCapability := by
  obtain ⟨run, e⟩ := exec_eq_issue i s
  rw [e]
  simp [State.issue, ha.pinMap, State.stuckAt_of_idle s ha.idle, ha.bound, hc, hi]

theorem completed_withInterface (i : Instr) (pp : PinPair) (s : State) (f : Interface) :
    completed i pp (s.withInterface f) = (completed i pp s).withInterface f := by
  have hevents : commandEvents i pp (s.withInterface f) = commandEvents i pp s := by cases i <;> rfl
  rw [completed, completed, hevents]
  generalize commandEvents i pp s = evs
  rfl

/-- Settles O48: the interface check is one of the acceptance checks, and nothing else looks at the interface. -/
theorem capabilityInterfaceIsWriteAlone : Obligations.CapabilityInterfaceIsWriteAlone := by
  refine fun s pp ha => ⟨fun hc => ⟨exec_not_inCapability ha hc rfl, fun r g b br => exec_not_inCapability ha hc rfl,
    fun count => exec_not_inCapability ha hc rfl⟩, fun f base count br t h => ?_⟩
  obtain ⟨pp', ha', hcomp, rfl⟩ := exec_next_inv h
  have haf : Accepts (s.withInterface f) pp' := ⟨ha'.pinMap, ha'.bound, ha'.idle⟩
  exact (exec_completes haf (i := .write base count br) hcomp).trans (congrArg _ (completed_withInterface _ pp' s f))

/-! The pins of an instance (42_batch_write.md R169). -/

@[simp] theorem State.goOn_config (s : State) (i : Instr) (r : Option Running) : (s.goOn i r).config = s.config := by
  cases r <;> rfl

theorem stuckState_config (base : Addr) (count : Count) (br : Brightness) (pp : PinPair) (s : State) (m j : Nat) :
    (stuckState base count br pp s m j).config = s.config := rfl

/-- Settles O54: neither a completed command nor a stuck WRITE nor an action of the sequencer writes the configuration. -/
theorem pinsCannotBeRebound : Obligations.PinsCannotBeRebound := by
  refine ⟨fun s t i h => ?_, fun s t h => ?_, fun s t a h => ?_, fun s t h => ?_⟩
  · obtain ⟨pp, -, -, rfl⟩ := exec_next_inv h
    rw [completed_config]
  · obtain ⟨k, i, pp, -, -, -, rfl⟩ := step_next_inv h
    rw [completed_config, State.setPort_config]
  · rcases step_stuck_inv h with ⟨-, rfl⟩ | ⟨k, pp, base, count, br, m, j, -, -, -, -, -, rfl⟩
    · rfl
    · rw [stuckState_config, State.setPort_config]
  · obtain ⟨evs, i, r, rfl⟩ := tick_inv h
    rw [State.goOn_config, State.emitAll_config]

end Sys2Proof.Machine
end

section
/-!
PROOFS of the statements about the outcomes of a command and their order (60_exceptions.md R176 to R191).
-/

namespace Sys2Proof.Machine

/-! A stuck instance (60_exceptions.md R181). -/

/-- Stuck is a WRITE that waits for a colour read the platform does not admit. -/
theorem stuckAt_eq_some_inv {s : State} {a : Nat} (h : s.stuckAt = some a) :
    ∃ inst base count br led colour, s.seq = some ⟨inst, .write base count br, .read, led, colour⟩ ∧
      a = colourAddr base led colour.length ∧ admits s.config a = false := by
  unfold State.stuckAt at h
  split at h
  · next inst base count br led colour hseq =>
    split at h
    · cases h
    · next hbad =>
      cases h
      exact ⟨inst, base, count, br, led, colour, hseq, rfl, Bool.eq_false_iff.mpr hbad⟩
  · cases h

/-- The read that a stuck instance waits for gives no byte (20_memory.md R62). -/
theorem tick_of_stuckAt {s : State} {a : Nat} (h : s.stuckAt = some a) : s.tick = none := by
  obtain ⟨inst, base, count, br, led, colour, hseq, rfl, hbad⟩ := stuckAt_eq_some_inv h
  have hread : s.memRead (colourAddr base led colour.length) = none := by simp [State.memRead, hbad]
  cases hb : s.config.bindings[inst]? <;> simp [State.tick, hseq, hb, hread]

theorem step_of_stuckAt {s : State} {a : Nat} (h : pinMapOk s.config = true) (ha : s.stuckAt = some a) :
    step s = .fault (.memNotAdmitted a s) := by
  simp [step, h, ha]

theorem pinMapOk_of_step_fault {s : State} {f : Fault} (h : step s = .fault f) : pinMapOk s.config = true := by
  by_contra hbad
  rw [step_of_bad_pinMap (Bool.eq_false_iff.mpr hbad)] at h
  cases h

/-- What a stuck step leaves is stuck at the same address, on the same pin map. -/
theorem stuckAt_of_step_stuck {s t : State} {a : Nat} (h : step s = .fault (.memNotAdmitted a t)) :
    pinMapOk t.config = true ∧ t.stuckAt = some a := by
  have hok := pinMapOk_of_step_fault h
  rcases step_stuck_inv h with ⟨ha, rfl⟩ | ⟨k, pp, base, count, br, m, j, -, -, -, hs, rfl, rfl⟩
  · exact ⟨hok, ha⟩
  · exact ⟨hok, stuckState_stuckAt hs br⟩

/-- Settles O38: the step and every command look at `stuckAt` before anything else, and reset leaves no command running. -/
theorem stuckStaysStuckUntilReset : Obligations.StuckStaysStuckUntilReset := by
  intro s t a h
  obtain ⟨hok, ha⟩ := stuckAt_of_step_stuck h
  exact ⟨step_of_stuckAt hok ha, exec_of_stuckAt hok ha, tick_of_stuckAt ha, State.stuckAt_of_idle _ rfl⟩

/-! A strip on a shared clock line (60_exceptions.md R191). -/

section
variable {s : State} {pp strip : PinPair} {k : Nat}

theorem PinFile.wire_congr {f g : PinFile} {p : Pin} (ho : f.oeBit p = g.oeBit p) (hl : f.latch p = g.latch p) :
    f.wire p = g.wire p := by
  rw [PinFile.wire, PinFile.wire, ho, hl]

theorem transferPins_clk_out (i : Instr) (h : runsInit i = true ∨ s.pins.oeBit pp.clk = true) :
    (transferPins i pp s.pins).oeBit pp.clk = true := by
  cases hr : runsInit i with
  | true => rw [transferPins_of_init hr]; exact init_oeBit s pp (.inl rfl)
  | false => rw [transferPins_of_no_init hr]; exact h.resolve_left (by simp [hr])

theorem transferPins_wire_other (i : Instr) {p : Pin} (hclk : p ≠ pp.clk) (hdata : p ≠ pp.data) :
    (transferPins i pp s.pins).wire p = s.pins.wire p := by
  cases hr : runsInit i with
  | true =>
    obtain ⟨ho, hl⟩ := init_other s pp hclk hdata
    rw [transferPins_of_init hr]
    exact PinFile.wire_congr ho hl
  | false => rw [transferPins_of_no_init hr]

/-- A strip whose data line the TRANSFERs do not touch samples the level it holds, once for each bit sent. -/
theorem sampledBits_bytes_held {f : PinFile} (hne : pp.clk ≠ pp.data) (hs : strip.clk = pp.clk)
    (hclk : strip.data ≠ pp.clk) (hdata : strip.data ≠ pp.data) (hout : f.oeBit pp.clk = true)
    (hlow : f.latch pp.clk = false) (bytes : List Byte) :
    sampledBits strip f (bytes.flatMap (transferEvents pp)) = List.replicate (8 * bytes.length) (f.wire strip.data) := by
  rw [sampledBits_bytes pp strip hne hs hclk f bytes hout hlow, ← length_bits]
  simp only [hdata, false_and, if_false, List.map_const']

/-- Without misuse, the data line of an idle instance is at 0 once it is an output (10_state.md R45, R46). -/
theorem Inv.idle_data_low (hi : Inv s) (hm : s.misuse = false) (hb : s.config.bindings[k]? = some strip)
    (hidle : (s.ghostOf k).phase = .idle) (hout : s.pins.oeBit strip.data = true) :
    s.pins.wire strip.data = .driven false := by
  obtain ⟨l, hl⟩ := Option.isSome_iff_exists.mp (hi.written _ hout)
  have hlow : l = false := Bool.eq_false_iff.mpr fun h => hi.idleLow hm k strip hb hidle (h ▸ hl)
  rw [PinFile.wire_of_driven hout, latch_of_find? hl, hlow]

end

/-- Settles O46: the other strip's data pin is no pin of the command, so its line keeps its level from before INIT to the last
TRANSFER. -/
theorem sharedClockSamplesTheHeldValue : Obligations.SharedClockSamplesTheHeldValue := by
  intro s t i pp strip k hi hexec hb hstrip hk hs hout
  obtain ⟨pp', ha, -, rfl⟩ := exec_next_inv hexec
  obtain rfl := accepts_bound_eq ha hb
  obtain ⟨hclk, hdata, -⟩ := accepts_other_pins ha hstrip hk
  have hframe := completed_frame ha i
  have hclkOut := transferPins_clk_out i hout
  have hclkLow := transferPins_clk_latch_low hi (List.mem_of_getElem? hb) i hclkOut
  have hbits : (completed i pp s).bitStream strip = s.bitStream strip ++
      List.replicate (8 * (commandBytes i s).length) (s.pins.wire strip.data) := by
    rw [completed_bitStream hi, sampledBits_bytes_held (accepts_pins_ne ha) hs hclk hdata hclkOut hclkLow,
      transferPins_wire_other i hclk hdata]
  refine ⟨PinFile.wire_congr (hframe.oe _ hclk hdata) (hframe.latch _ hclk hdata), hbits, fun hm hidle hdataOut => ?_⟩
  rw [hbits, hi.idle_data_low hm hstrip hidle hdataOut]

/-! Where a run ends (60_exceptions.md R176, 70_reset_and_hazards.md R222). -/

theorem fetchWord_eq_ended_iff (ws : List PortWord) (n : Nat) : fetchWord ws n = .ended ↔ ws.length ≤ n := by
  rw [← List.getElem?_eq_none_iff]
  cases hw : ws[n]? with
  | none => simp [fetchWord, hw]
  | some w =>
    refine iff_of_false ?_ nofun
    cases hd : decode w.word (secondWord ws n w) with
    | ok c => rw [fetchWord_of_decode hw hd]; nofun
    | error e => rw [fetchWord_of_decode_error hw hd]; nofun

theorem fetchRecord_eq_ended_iff (rs : List PortRecord) (n : Nat) : fetchRecord rs n = .ended ↔ rs.length ≤ n := by
  rw [← List.getElem?_eq_none_iff]
  cases hc : rs[n]? with
  | none => simp [fetchRecord, hc]
  | some c =>
    refine iff_of_false ?_ nofun
    cases h : assemble c.cmd with
    | ok i => rw [fetchRecord_of_assemble hc h]; nofun
    | error r => rw [fetchRecord_of_assemble_error hc h]; nofun

theorem fetch_eq_ended_iff (s : State) : s.fetch = .ended ↔ s.program.length ≤ s.cpc := by
  cases hp : s.program with
  | words ws => rw [fetch_of_words hp]; exact fetchWord_eq_ended_iff ws s.cpc
  | records rs => rw [fetch_of_records hp]; exact fetchRecord_eq_ended_iff rs s.cpc

theorem exec_ne_runEnded (i : Instr) (s : State) : exec i s ≠ .fault .runEnded := by
  intro h
  rcases exec_fault_inv h with ⟨a, -, hf⟩ | ⟨pp, base, count, br, m, j, -, -, -, -, hf⟩ <;> cases hf

/-- The end of the run is the step's own answer; no command gives it. -/
theorem step_eq_runEnded_iff {s : State} (h : Steps s) : step s = .fault .runEnded ↔ s.fetch = .ended := by
  refine ⟨fun hstep => ?_, step_of_fetch_ended h⟩
  cases hf : s.fetch with
  | ended => rfl
  | rejected r => rw [step_of_fetch_rejected h hf] at hstep; cases hstep
  | command k i => rw [step_of_fetch_command h hf] at hstep; exact absurd hstep (exec_ne_runEnded _ _)

/-- Settles O53: the fetch finds nothing exactly from the end of the list on, and `cpc` never passes it. -/
theorem runEndsWhereTheListEnds : Obligations.RunEndsWhereTheListEnds := by
  refine ⟨fun s hi hs => ⟨?_, ?_⟩, fun s hf => ?_, fun s hbad => ?_⟩
  · rw [step_eq_runEnded_iff hs, fetch_eq_ended_iff]
    exact ⟨hi.cpc.antisymm, Eq.ge⟩
  · rw [State.final_iff]
    exact ⟨fun ⟨_, hend, _⟩ => hend, fun hend => ⟨hs.pinMap, hend, hi.idle⟩⟩
  · obtain ⟨hok, hend, hidle⟩ := s.final_iff.mp hf
    exact step_of_fetch_ended ⟨hok, s.stuckAt_of_idle hidle⟩ (fetch_at_end hend)
  · rw [State.final, hbad]; rfl

/-! The acceptance checks of a command, in their order (60_exceptions.md R179, R188). -/

section
variable {s : State} {pp : PinPair} {i : Instr}

/-- The interface is checked before a command in flight. -/
theorem exec_refused_notInCapability (hs : Steps s) (hb : s.config.bindings[s.port]? = some pp)
    (hc : s.interface = .capability) (hi : inCapability i = false) : exec i s = .refused .notInCapability := by
  obtain ⟨run, e⟩ := exec_eq_issue i s
  rw [e]
  simp [State.issue, hs.pinMap, hs.free, hb, hc, hi]

theorem exec_refused_concurrentHost (hs : Steps s) (hb : s.config.bindings[s.port]? = some pp)
    (hbusy : s.seq.isSome) (hc : s.interface = .concrete ∨ inCapability i = true) :
    exec i s = .refused .concurrentHost := by
  have hi : ¬ (s.interface = .capability ∧ inCapability i = false) := by
    rcases hc with hc | hc <;> simp [hc]
  obtain ⟨run, e⟩ := exec_eq_issue i s
  rw [e]
  simp [State.issue, hs.pinMap, hs.free, hb, hi, hbusy]

/-- An accepted command starts at INIT or at its first byte, not at a read, so it is not stuck. -/
theorem accept_stuckAt (s : State) (i : Instr) (pp : PinPair) : (s.accept i pp).stuckAt = none := by
  cases i <;> rfl

theorem accept_steps (h : Accepts s pp) (i : Instr) : Steps (s.accept i pp) :=
  ⟨h.pinMap, accept_stuckAt s i pp⟩

end

/-- Settles O49: an accepted command is a sequencer that runs. -/
theorem secondCommandInFlightIsRefused : Obligations.SecondCommandInFlightIsRefused :=
  ⟨fun _ _ _ hs hb hbusy hc => exec_refused_concurrentHost hs hb hbusy hc,
    fun _ _ i _ ha hc => exec_refused_concurrentHost (accept_steps ha i) ha.bound rfl hc⟩

/-- Settles O51: the order in which the step, the fetch, the acceptance checks and WRITE answer. -/
theorem outcomesAreTakenInOrder : Obligations.OutcomesAreTakenInOrder :=
  ⟨fun _ => step_of_bad_pinMap,
    fun _ _ _ _ hs hp hw hd => step_of_fetch_rejected hs ((fetch_of_words hp).trans (fetchWord_of_decode_error hw hd)),
    fun _ _ _ hs hb hc hi => exec_refused_notInCapability hs hb hc hi,
    fun _ _ _ _ _ hs hb hbusy => exec_refused_concurrentHost hs hb hbusy (.inr rfl),
    fun _ _ _ _ _ ha ho => exec_write_overflow ha ho⟩

end Sys2Proof.Machine
end

section
/-!
PROOFS of the statements about reset and the time before the first INIT (70_reset_and_hazards.md R200, R202).
-/

namespace Sys2Proof.Machine

/-! Before the first INIT (70_reset_and_hazards.md R202). -/

theorem PinFile.initial_oeBit (p : Pin) : PinFile.initial.oeBit p = false := rfl

/-- Only `Cfg` of a pin makes it an output. -/
theorem wire_foldl_eq_z {f : PinFile} {p : Pin} {evs : List Event} (h : .cfg p ∉ evs) (hf : f.oeBit p = false) :
    (evs.foldl PinFile.apply f).wire p = .z := by
  rw [PinFile.wire_eq_z, foldl_oeBit, hf, decide_eq_false h, Bool.false_or]

theorem cfg_notMem_transfers (pp : PinPair) (bytes : List Byte) (p : Pin) :
    .cfg p ∉ bytes.flatMap (transferEvents pp) := by
  intro h
  obtain ⟨l, h | h⟩ := mem_transfers h <;> cases h

/-- Settles O21: a pin no `Cfg` names stays undriven, and only INIT holds a `Cfg`. -/
theorem nothingIsDrivenBeforeInit : Obligations.NothingIsDrivenBeforeInit := by
  refine ⟨fun evs strip => ⟨fun hclk => ⟨?_, ?_⟩, fun hdata => ?_⟩, fun s t i p hexec hi hp => ?_⟩
  · exact sampledBits_not_driven hclk _ (PinFile.initial_oeBit _)
  · exact wire_foldl_eq_z hclk (PinFile.initial_oeBit _)
  · exact wire_foldl_eq_z hdata (PinFile.initial_oeBit _)
  · obtain ⟨pp, -, -, rfl⟩ := exec_next_inv hexec
    rw [completed_trace_of_no_init hi, List.mem_append] at hp
    exact hp.resolve_right (cfg_notMem_transfers pp _ p)

/-! The reset event (70_reset_and_hazards.md R200). -/

theorem State.resetEvent_seq (s : State) : s.resetEvent.seq = none := rfl

theorem State.resetEvent_ghostOf (s : State) (k : Nat) : s.resetEvent.ghostOf k = Ghost.initial := rfl

/-- Settles O55: the reset values, and an idle sequencer is neither stuck nor acts. -/
theorem resetPutsEveryPieceAtItsResetValue : Obligations.ResetPutsEveryPieceAtItsResetValue := by
  intro s
  have idle := s.resetEvent_seq
  refine ⟨PinFile.initial_oeBit, idle, fun k => ?_, rfl, rfl, rfl, rfl, State.stuckAt_of_idle _ idle, tick_of_idle idle⟩
  rw [s.resetEvent_ghostOf k]
  exact ⟨rfl, rfl⟩

end Sys2Proof.Machine
end

section
/-!
PROOFS of the statement about the words written out in 95_test_vectors.md 2.5.
-/

namespace Sys2Proof.Machine

/-- Settles O6: four of the words are encodings (R92 to R95), one has a reserved field that is not zero, and one is a WRITE
without its second word. -/
theorem sampleWordsDecode : Obligations.SampleWordsDecode := by
  refine ⟨?startFrame, ?sendColor, ?endFrame, ?write, ?reserved, ?truncated⟩
  case startFrame => exact decode_encode (i := .startFrame) (rest := []) rfl
  case sendColor => exact decode_encode (i := .sendColor 1#8 2#8 3#8 31#5) (rest := []) rfl
  case endFrame => exact decode_encode (i := .endFrame 0xFFFF#16) (rest := []) rfl
  case write => exact decode_encode (i := .write 0x1000#32 1#16 31#5) (rest := []) rfl
  case reserved =>
    have hfield : (0x20000001#32).toNat / 2 ^ 29 = 1 ∧ (0x20000001#32).toNat % 2 ^ 29 ≠ 0 := by decide
    exact (decode_eq_reservedEncoding_iff _ _).mpr (.inr (.inl hfield))
  case truncated => exact decode_write_none (by decide) (by decide)

end Sys2Proof.Machine
end
